-- ==== Sys2Proof/Word.lean ====
section
/-! DEFINITION. The words of the block: the widths that 00_scope.md R7 and 10_state.md R15 fix. -/

namespace Sys2Proof

/-- A register, a bus datum or a command word: 32 bits (R7). -/
abbrev Word := BitVec 32

/-- An operand byte (format B of R53) or an item of the output FIFO (R22). -/
abbrev Byte := BitVec 8

/-- A 5-bit symbol, 0 to 31 (00_scope.md glossary; format S of R53). -/
abbrev Symbol := BitVec 5

/-- A stored character of the human-readable part: 7 bits (R7, R20). -/
abbrev HrpChar := BitVec 7

/-- The polymod state: 30 bits (R19). -/
abbrev Chk := BitVec 30

end Sys2Proof
end

