-- ==== Sys2Proof/Syntax.lean ====
section
/-! DEFINITION. The commands of the block: one constructor per row of spec/opcode_table.json (30_encoding.md R55),
and the opcodes that the dispatch table of R63 is keyed by. -/

namespace Sys2Proof

/-- A command with its operand, as 30_encoding.md R54 takes it from the operand byte. -/
inductive Instr where
  /-- NOP, format Z (R90). -/
  | nop
  /-- CLR, format Z (R91). -/
  | clr
  /-- CFG, format C: `c` is `{ROUTE, DIR, PAD}` (R92). -/
  | cfg (c : BitVec 3)
  /-- HRP, format B: `v` is a character code (R77). -/
  | hrp (v : Byte)
  /-- SEP, format Z (R78). -/
  | sep
  /-- DIN, format B: `v` is a converter input value (R68). -/
  | din (v : Byte)
  /-- SYM, format S: `x` is a 5-bit symbol (R87). -/
  | sym (x : Symbol)
  /-- FLUSH, format Z (R69). -/
  | flush
  /-- FIN, format Z (R80). -/
  | fin
deriving DecidableEq, Repr

/-- The nine opcodes 0x0 to 0x8 (R55). -/
inductive Op where
  | nop | clr | cfg | hrp | sep | din | sym | flush | fin
deriving DecidableEq, Repr

/-- The opcode of a command. -/
def Instr.op : Instr → Op
  | .nop => .nop
  | .clr => .clr
  | .cfg _ => .cfg
  | .hrp _ => .hrp
  | .sep => .sep
  | .din _ => .din
  | .sym _ => .sym
  | .flush => .flush
  | .fin => .fin

end Sys2Proof
end

