-- ==== Sys2Proof/WellFormed.lean ====
section
/-! DEFINITION. Which commands are well formed: the part of 30_encoding.md R56 that the types of `Instr` leave
open.  The reserved bits of a word are the decoder's business (Decode.lean). -/

namespace Sys2Proof

/-- A CFG operand that R56 admits: not 2 and not 3, ENC with 5-to-8 (10_state.md R24). -/
abbrev CfgLegal (c : BitVec 3) : Prop := c ≠ 2#3 ∧ c ≠ 3#3

/-- Well-formedness of a command (R56): only CFG has operand values its field can hold and the rule refuses. -/
abbrev Instr.WellFormed (i : Instr) : Prop :=
  match i with
  | .nop => True
  | .clr => True
  | .cfg c => CfgLegal c
  | .hrp _ => True
  | .sep => True
  | .din _ => True
  | .sym _ => True
  | .flush => True
  | .fin => True

/-- `Instr.WellFormed` as a check. -/
def Instr.wellFormed : Instr → Bool
  | .nop => true
  | .clr => true
  | .cfg c => decide (CfgLegal c)
  | .hrp _ => true
  | .sep => true
  | .din _ => true
  | .sym _ => true
  | .flush => true
  | .fin => true

end Sys2Proof
end

