-- ==== Sys2Proof/Decode.lean ====
section
/-! DEFINITION. Decoding and encoding command words (30_encoding.md R52 to R59).  A command is ONE 32-bit word,
the data of one CMD write (R52, R59); the byte order of the bus cannot be observed (20_memory.md R41), so the
decoder takes the word and not a list of bytes.  Total: a word that is no command is rejected by the name of the
error it raises (R57). -/

namespace Sys2Proof

/-- Why a word is no command: the two illegal encodings of R57. -/
inductive DecodeError where
  /-- R57(a): OP is 0x9 to 0xF. -/
  | illegalOpcode
  /-- R57(b): OP is 0x0 to 0x8 and `WellFormed(w)` is false. -/
  | illegalOperand
deriving DecidableEq, Repr

/-- `w[31:16]`, reserved (R52). -/
def reservedHigh (w : Word) : BitVec 16 := w.extractLsb' 16 16
/-- `w[15:12]`, the opcode field OP (R52). -/
def opField (w : Word) : BitVec 4 := w.extractLsb' 12 4
/-- `w[11:8]`, reserved (R52). -/
def reservedMid (w : Word) : BitVec 4 := w.extractLsb' 8 4
/-- `w[7:0]`, the operand byte IMM8 (R52). -/
def imm8 (w : Word) : Byte := w.extractLsb' 0 8

/-- The opcode map (R55); 0x9 to 0xF are reserved. -/
def opOf (f : BitVec 4) : Option Op :=
  match f.toNat with
  | 0x0 => some .nop
  | 0x1 => some .clr
  | 0x2 => some .cfg
  | 0x3 => some .hrp
  | 0x4 => some .sep
  | 0x5 => some .din
  | 0x6 => some .sym
  | 0x7 => some .flush
  | 0x8 => some .fin
  | _ => none

/-- Format Z (R53): the operand byte must be 0. -/
def formatZ (b : Byte) (i : Instr) : Option Instr :=
  if b = 0#8 then some i else none

/-- Format C (R53): `[7:3]` must be 0, and R56 refuses 2 and 3. -/
def formatC (b : Byte) : Option Instr :=
  if b.extractLsb' 3 5 = 0#5 ∧ CfgLegal (b.extractLsb' 0 3) then some (.cfg (b.extractLsb' 0 3)) else none

/-- Format S (R53): `[7:5]` must be 0. -/
def formatS (b : Byte) : Option Instr :=
  if b.extractLsb' 5 3 = 0#3 then some (.sym (b.extractLsb' 0 5)) else none

/-- The command an opcode and its operand byte spell, by the opcode's format (R53 to R55). -/
def withOperand (op : Op) (b : Byte) : Option Instr :=
  match op with
  | .nop => formatZ b .nop
  | .clr => formatZ b .clr
  | .cfg => formatC b
  | .hrp => some (.hrp b)
  | .sep => formatZ b .sep
  | .din => some (.din b)
  | .sym => formatS b
  | .flush => formatZ b .flush
  | .fin => formatZ b .fin

/-- Decoding a command word: the opcode check comes first, then the reserved bits and the operand (R57, R62). -/
def decode (w : Word) : Except DecodeError Instr :=
  match opOf (opField w) with
  | none => .error .illegalOpcode
  | some op =>
    if reservedHigh w = 0#16 ∧ reservedMid w = 0#4 then
      match withOperand op (imm8 w) with
      | some i => .ok i
      | none => .error .illegalOperand
    else .error .illegalOperand

/-- The value of the field OP (R55). -/
def opBits : Op → BitVec 4
  | .nop => 0x0#4
  | .clr => 0x1#4
  | .cfg => 0x2#4
  | .hrp => 0x3#4
  | .sep => 0x4#4
  | .din => 0x5#4
  | .sym => 0x6#4
  | .flush => 0x7#4
  | .fin => 0x8#4

/-- The operand byte of a command (R53, R54). -/
def immBits : Instr → Byte
  | .nop => 0#8
  | .clr => 0#8
  | .cfg c => c.setWidth 8
  | .hrp v => v
  | .sep => 0#8
  | .din v => v
  | .sym x => x.setWidth 8
  | .flush => 0#8
  | .fin => 0#8

/-- The word of a command: `{0, OP, 0, IMM8}` (R52). -/
def encode (i : Instr) : Word :=
  0#16 ++ opBits i.op ++ 0#4 ++ immBits i

/-- The word that a table row's bits stand for: a command has 32 bits, so bits above `nbits` are 0. -/
def tableWord (nbits w : Nat) : Word := BitVec.ofNat 32 (w % 2 ^ nbits)

/-- What the decoder reads from an instruction whose `nbits` bits are `w`, numbered as spec/opcode_table.json
numbers them.  No command is longer than one word (R59); log entry 16. -/
def decodeTableWord (nbits w : Nat) : Option Instr :=
  if nbits ≤ 32 then
    match decode (tableWord nbits w) with
    | .ok i => some i
    | .error _ => none
  else none

end Sys2Proof
end

