-- ==== Sys2Proof/Config.lean ====
section
/-! DEFINITION. The implementation parameters of the block (00_scope.md R6, R13): they are constants of one
instance of the hardware, and the model is written for every value of them. -/

namespace Sys2Proof

/-- The three parameters of R6.  A state carries the parameters of its instance, and no step changes them
(log entry 1). -/
structure Params where
  /-- `HRP_MAX`: capacity of the prefix buffer, in characters. -/
  hrpMax : Nat
  /-- `OUT_DEPTH`: capacity of the output FIFO, in items. -/
  outDepth : Nat
  /-- `BASE`: byte address of the register window on the host bus. -/
  base : Nat
deriving DecidableEq, Repr

/-- The constraints of R6 on the parameters. -/
abbrev Params.Wf (p : Params) : Prop :=
  1 ≤ p.hrpMax ∧ p.hrpMax ≤ 255 ∧ max (p.hrpMax + 1) 7 ≤ p.outDepth ∧ p.outDepth ≤ 255 ∧ p.base % 32 = 0

/-- The reference values of R6 (`HRP_MAX` 16, `OUT_DEPTH` 128).  `BASE` has no reference value: 0 is a
DESIGN CHOICE (log entry 2). -/
def Params.reference : Params := ⟨16, 128, 0⟩

end Sys2Proof
end

