-- ==== Sys2Proof/Machine/State.lean ====
section
/-! DEFINITION. The state of the block (10_state.md R15), the host's accesses (20_memory.md R51), the reasons a
step can stop, and the state after reset (70_reset_and_hazards.md R106). -/

namespace Sys2Proof.Machine

/-- The sequencer's phases (R27).  The values 5 and 6 never occur, so they are no phase; the 3-bit code of each
is `phaseBits` (Flags.lean). -/
inductive Phase where
  /-- 0: session open, nothing delivered. -/
  | idle
  /-- 1: ENC route, at least one prefix character held. -/
  | hrp
  /-- 2: ENC route, separator done, data accepted. -/
  | data
  /-- 3: RAW route, at least one value converted. -/
  | conv
  /-- 4: result complete. -/
  | done
  /-- 7: an error ended the session. -/
  | err
deriving DecidableEq, Repr

/-- The error codes (60_exceptions.md R93).  Codes 9 to 15 never occur (R25); the 4-bit code of each is
`errBits` (Flags.lean). -/
inductive ErrCode where
  /-- 0: no error in this session. -/
  | noError
  /-- 1: ILLEGAL_OPCODE, raised by dispatch. -/
  | illegalOpcode
  /-- 2: ILLEGAL_OPERAND, raised by dispatch. -/
  | illegalOperand
  /-- 3: SEQUENCE, raised by dispatch. -/
  | sequence
  /-- 4: HRP_CHAR, raised by HRP. -/
  | hrpChar
  /-- 5: HRP_FULL, raised by HRP. -/
  | hrpFull
  /-- 6: RANGE, raised by DIN. -/
  | range
  /-- 7: REJECT, raised by FLUSH and FIN. -/
  | reject
  /-- 8: OVERFLOW, raised by SEP, DIN, SYM, FLUSH and FIN. -/
  | overflow
deriving DecidableEq, Repr

/-- `cfg.ROUTE` (R23): 0 = ENC, 1 = RAW. -/
inductive Route where
  | enc | raw
deriving DecidableEq, Repr

/-- `cfg.DIR` (R23): 0 = 8-to-5, 1 = 5-to-8. -/
inductive Dir where
  | eightToFive | fiveToEight
deriving DecidableEq, Repr

/-- The eight registers of the window (R29). -/
inductive Reg where
  | cmd | status | cfg | out | chk | acc | reserved18 | reserved1C
deriving DecidableEq, Repr

/-- One move of the host (R5, R51): reset, `MemRead(addr, size)` or `MemWrite(addr, size, value)` (R46).
Addresses are byte addresses of the host's bus, whose width the spec does not fix. -/
inductive Access where
  /-- The platform asserts reset, between accesses (R105, R108). -/
  | reset
  /-- A read of `size` bytes. -/
  | read (addr size : Nat)
  /-- A write of `size` bytes. -/
  | write (addr size : Nat) (value : Word)
deriving DecidableEq, Repr

/-- The machine.  `cfg` to `fifo` are the block state of R15; `params` are the constants of the instance (R6,
R13; log entry 1); `pending` and `readBack` are the MODEL's own account of the host: the accesses the host will
make, in its order (R47), and the values it has got back, oldest first (log entries 4 and 5). -/
structure State where
  /-- `HRP_MAX`, `OUT_DEPTH` and `BASE` (R6). -/
  params : Params
  /-- `cfg`: `{ROUTE, DIR, PAD}` (R23). -/
  cfg : BitVec 3
  /-- `phase` (R27). -/
  phase : Phase
  /-- `err` (R25). -/
  err : ErrCode
  /-- `acc`, the converter's accumulator (R17). -/
  acc : BitVec 12
  /-- `cnt`, the number of buffered bits (R18). -/
  cnt : BitVec 4
  /-- `chk`, the polymod state (R19). -/
  chk : Chk
  /-- `hrp_len`, the number of prefix characters held (R21). -/
  hrpLen : BitVec 8
  /-- `hrp_buf`, `HRP_MAX` characters, index 0 first (R20). -/
  hrpBuf : List HrpChar
  /-- `fifo`, the output FIFO, head first (R22). -/
  fifo : List Byte
  /-- The host's accesses to come, next first. -/
  pending : List Access
  /-- The values the block has returned to the host's reads, oldest first. -/
  readBack : List Word
deriving DecidableEq, Repr

/-- The reasons the machine stops with a fault: none.  No access raises a bus error (20_memory.md R46), and
every error of the block is a defined next state (60_exceptions.md R94), so this type has no constructor; the
block never hangs (R117). -/
inductive Fault where
deriving DecidableEq, Repr

/-- The reasons the model has no step. -/
inductive Refusal where
  /-- Raised by an arm of `exec` for an instruction without a meaning: by none, since every command has its
  meaning.  Safe. -/
  | notModelled (mnemonic : String)
  /-- Raised by `hostAccess` (Bus.lean) for an access of `size` bytes other than 4: the spec's bus carries no such
  access and "A model refuses an access of any other size" (20_memory.md R42).  Safe. -/
  | accessSize (size : Nat)
deriving DecidableEq, Repr

/-- The state after reset of an instance with parameters `p` (70_reset_and_hazards.md R106), before the host's
first access.  The contents of `hrp_buf` are unspecified and unobservable (R14, R106): zeros are a DESIGN CHOICE
(log entry 3). -/
def State.resetWith (p : Params) : State :=
  { params := p, cfg := 0b001#3, phase := .idle, err := .noError, acc := 0#12, cnt := 0#4, chk := 1#30,
    hrpLen := 0#8, hrpBuf := List.replicate p.hrpMax 0#7, fifo := [], pending := [], readBack := [] }

/-- The machine right after reset, with the reference parameters (R6) and nothing asked of it by the host. -/
def State.reset : State := State.resetWith Params.reference

end Sys2Proof.Machine
end

