-- ==== Sys2Proof/Machine/Operands.lean ====
section
/-! DEFINITION. What the commands read as operands beside their operand byte: the fields of `cfg` (10_state.md
R23), the converter's widths they choose (40_converter.md R64), the characters held, and the checks on operand
values that a command makes itself (R54: HRP and DIN). -/

namespace Sys2Proof.Machine

/-- `cfg[0]` = PAD (R23). -/
def padOf (c : BitVec 3) : Bool := c.getLsbD 0

/-- `cfg[1]` = DIR (R23). -/
def dirOf (c : BitVec 3) : Dir := if c.getLsbD 1 then .fiveToEight else .eightToFive

/-- `cfg[2]` = ROUTE (R23). -/
def routeOf (c : BitVec 3) : Route := if c.getLsbD 2 then .raw else .enc

/-- PAD of the current configuration. -/
def State.pad (s : State) : Bool := padOf s.cfg
/-- DIR of the current configuration. -/
def State.dir (s : State) : Dir := dirOf s.cfg
/-- ROUTE of the current configuration. -/
def State.route (s : State) : Route := routeOf s.cfg

/-- `from` of `Widths(DIR)` (R64). -/
def fromBits : Dir → Nat
  | .eightToFive => 8
  | .fiveToEight => 5

/-- `to` of `Widths(DIR)` (R64). -/
def toBits : Dir → Nat
  | .eightToFive => 5
  | .fiveToEight => 8

/-- `maxv = 2^to - 1` (R64). -/
def maxv (wo : Nat) : Nat := 2 ^ wo - 1

/-- DIN's check on its operand (R68): with DIR = 1 the value must be below 32. -/
def dinOutOfRange (d : Dir) (v : Byte) : Bool := d == .fiveToEight && decide (32 ≤ v.toNat)

/-- HRP's check on its operand (R77): a character code is below 0x80. -/
def hrpCharIllegal (v : Byte) : Bool := decide (0x80 ≤ v.toNat)

/-- The characters held: `[hrp_buf[0], ..., hrp_buf[hrp_len - 1]]` (R20, R21). -/
def State.hrpChars (s : State) : List HrpChar := s.hrpBuf.take s.hrpLen.toNat

end Sys2Proof.Machine
end

