-- ==== Sys2Proof/Machine/Ops.lean ====
section
/-! DEFINITION. The shared operations of the commands: error entry and the two ways out of it, dispatch, the
output FIFO, the converter (40_converter.md), the polymod (41_checksum.md) and the mapper (42_mapper.md).
Arithmetic is on exact natural numbers, and a field takes its width on assignment (00_scope.md R9). -/

namespace Sys2Proof.Machine

/-! ### Errors and sessions -/

/-- `raise Error(code)` (60_exceptions.md R94): the one error entry of the block.  Every field it does not name
keeps the value it had before the command. -/
def raise (e : ErrCode) (s : State) : State :=
  { s with err := e, phase := .err, fifo := [] }

/-- `DoCLR()` (43_control.md R91): every field of the block but `cfg` and `hrp_buf`. -/
def doClr (s : State) : State :=
  { s with acc := 0#12, cnt := 0#4, chk := 1#30, hrpLen := 0#8, fifo := [], phase := .idle, err := .noError }

/-- `Reset()` (70_reset_and_hazards.md R105). -/
def doReset (s : State) : State :=
  { doClr s with cfg := 0b001#3 }

/-! ### Dispatch -/

/-- `Legal(op, route, phase)` (30_encoding.md R63), for the phases but ERR, which never reach this table. -/
def legal (op : Op) (r : Route) (p : Phase) : Bool :=
  match op, r, p with
  | _, _, .err => false
  | .nop, _, _ => true
  | .clr, _, _ => true
  | .cfg, _, .idle => true
  | .hrp, .enc, .idle => true
  | .hrp, .enc, .hrp => true
  | .sep, .enc, .hrp => true
  | .din, .enc, .data => true
  | .din, .raw, .idle => true
  | .din, .raw, .conv => true
  | .sym, .enc, .data => true
  | .flush, .enc, .data => true
  | .flush, .raw, .idle => true
  | .flush, .raw, .conv => true
  | .fin, .enc, .data => true
  | _, _, _ => false

/-- A command's own rule ends in its effects or in an error, which is then raised in the state the command
started from: a command is atomic (R11, R94). -/
def settle (s : State) (r : Except ErrCode State) : State :=
  match r with
  | .ok t => t
  | .error e => raise e s

/-- `Execute(w)` (R62) for a word that decodes to `i`, whose own rule is `body`: in ERR the word is ignored
(R95); then well-formedness, then `Legal`, then the command's own rule. -/
def dispatch (i : Instr) (body : State → Except ErrCode State) (s : State) : State :=
  if s.phase = .err then s
  else if i.wellFormed = false then raise .illegalOperand s
  else if legal i.op s.route s.phase = false then raise .sequence s
  else settle s (body s)

/-- `if S.cfg.ROUTE = RAW: S.phase <- p`, the phase otherwise staying `q` (R68, R69). -/
def rawPhase (r : Route) (p q : Phase) : Phase :=
  match r with
  | .enc => q
  | .raw => p

/-- A command ends in a next state. -/
def answer (t : State) : Host.Outcome State Fault Refusal := .next t

/-! ### The output FIFO -/

/-- Push the items of a command, all or none: OVERFLOW when they do not fit (R93; D17 of
92_eei_decisions.md).  `len(items) > OUT_DEPTH - len(fifo)` on exact integers (R9). -/
def push (items : List Byte) (s : State) : Except ErrCode State :=
  if s.params.outDepth < s.fifo.length + items.length then .error .overflow
  else .ok { s with fifo := s.fifo ++ items }

/-- The state after `OutRead()` (10_state.md R33): the head item is removed when there is one. -/
def popOut (s : State) : State := { s with fifo := s.fifo.tail }

/-! ### The converter -/

/-- What `ConvPush` returns: the accumulator, the count and the chunks. -/
structure Converted where
  acc : Nat
  cnt : Nat
  chunks : List Nat
deriving DecidableEq, Repr

/-- The loop of `ConvPush` (R65): while `n >= to`, take `to` bits of `a` below position `n`.  `wo` is the output
width `to`, and `fuel` bounds the number of turns: `n` turns are enough, since `to` is not 0. -/
def takeChunks (a wo : Nat) : (fuel n : Nat) → Nat × List Nat
  | 0, n => (n, [])
  | fuel + 1, n =>
    if wo ≤ n then
      let r := takeChunks a wo fuel (n - wo)
      (r.1, ((a >>> (n - wo)) &&& maxv wo) :: r.2)
    else (n, [])

/-- `ConvPush(acc, cnt, v, from, to)` (R65), with `wi` for `from` and `wo` for `to`. -/
def convPush (acc cnt v wi wo : Nat) : Converted :=
  let a := ((acc <<< wi) ||| v) &&& 0xFFF
  let r := takeChunks a wo (cnt + wi) (cnt + wi)
  ⟨a, r.1, r.2⟩

/-- The low `cnt` bits of `acc` at the top of a `to`-bit chunk: `(acc << (to - cnt)) & maxv` (R66). -/
def topBits (acc cnt wo : Nat) : Nat := (acc <<< (wo - cnt)) &&& maxv wo

/-- `ConvFlush(acc, cnt, pad, from, to)` (R66); `none` is REJECT. -/
def convFlush (acc cnt : Nat) (pad : Bool) (wi wo : Nat) : Option (List Nat) :=
  if pad then
    if 0 < cnt then some [topBits acc cnt wo] else some []
  else if wi ≤ cnt ∨ topBits acc cnt wo ≠ 0 then none
  else some []

/-! ### The polymod -/

/-- `GEN` (R74). -/
def gen : List Chk :=
  [0x3b6a57b2#30, 0x26508e6d#30, 0x1ea119fa#30, 0x3d4233dd#30, 0x2a1462b3#30]

/-- The XOR of the constants `GEN[i]`, from index `i` on, whose bit of `b` is set (R75). -/
def genSum (b : Symbol) : (i : Nat) → List Chk → Chk
  | _, [] => 0#30
  | i, g :: gs => (if b.getLsbD i then g else 0#30) ^^^ genSum b (i + 1) gs

/-- `PolymodStep(chk, v)` (R75). -/
def polymodStep (c : Chk) (v : Symbol) : Chk :=
  (((c &&& 0x1ffffff#30) <<< 5) ^^^ v.setWidth 30) ^^^ genSum (c.extractLsb' 25 5) 0 gen

/-- The polymod of a sequence of values, from a given state. -/
def polymodFrom (c : Chk) (xs : List Symbol) : Chk := xs.foldl polymodStep c

/-- `HrpExpand(h)` (R76). -/
def hrpExpand (h : List HrpChar) : List Symbol :=
  h.map (fun c : HrpChar => (c >>> 5).setWidth 5) ++ [0#5] ++ h.map (fun c : HrpChar => c.setWidth 5)

/-- The six 5-bit fields of a 30-bit value, the most significant first (R40, R79). -/
def sixSymbols (c : Chk) : List Symbol :=
  [c.extractLsb' 25 5, c.extractLsb' 20 5, c.extractLsb' 15 5, c.extractLsb' 10 5, c.extractLsb' 5 5,
   c.extractLsb' 0 5]

/-- The checksum value of `Finalise(c)` (R79): six zero steps, then XOR 1; its symbols are `sixSymbols`. -/
def finalise (c : Chk) : Chk := polymodFrom c (List.replicate 6 0#5) ^^^ 1#30

/-! ### The mapper -/

/-- The alphabet `qpzry9x8gf2tvdw0s3jn54khce6mua7l` as its character codes (R83), index = value. -/
def alphabet : List Byte :=
  [0x71#8, 0x70#8, 0x7a#8, 0x72#8, 0x79#8, 0x39#8, 0x78#8, 0x38#8,
   0x67#8, 0x66#8, 0x32#8, 0x74#8, 0x76#8, 0x64#8, 0x77#8, 0x30#8,
   0x73#8, 0x33#8, 0x6a#8, 0x6e#8, 0x35#8, 0x34#8, 0x6b#8, 0x68#8,
   0x63#8, 0x65#8, 0x36#8, 0x6d#8, 0x75#8, 0x61#8, 0x37#8, 0x6c#8]

/-- `Map(v)` (R84). -/
def mapSymbol (v : Symbol) : Byte := alphabet.getD v.toNat 0#8

/-- The separator item (R85). -/
def separator : Byte := 0x31#8

/-- `Emit(route, chk, chunks)` (R67): in ENC each chunk is a symbol of the checksum and of the output string; in
RAW it is the output itself.  In ENC a chunk is below 32 (R24, R64), so taking 5 bits drops none (log entry 14). -/
def emit : Route → Chk → List Nat → Chk × List Byte
  | _, c, [] => (c, [])
  | .enc, c, x :: xs =>
    let r := emit .enc (polymodStep c (BitVec.ofNat 5 x)) xs
    (r.1, mapSymbol (BitVec.ofNat 5 x) :: r.2)
  | .raw, c, x :: xs =>
    let r := emit .raw c xs
    (r.1, BitVec.ofNat 8 x :: r.2)

end Sys2Proof.Machine
end

