-- ==== Sys2Proof/Machine/Checksum.lean ====
section
/-! DEFINITION. The checksum's commands HRP, SEP and FIN (41_checksum.md). -/

namespace Sys2Proof.Machine

/-- `HRP(v)` (R77). -/
def hrpRule (v : Byte) (s : State) : Except ErrCode State :=
  if hrpCharIllegal v then .error .hrpChar
  else if s.hrpLen.toNat = s.params.hrpMax then .error .hrpFull
  else .ok { s with hrpBuf := s.hrpBuf.set s.hrpLen.toNat (v.setWidth 7), hrpLen := s.hrpLen + 1#8, phase := .hrp }

/-- HRP (R77): append one character to the prefix. -/
def execHrp (v : Byte) (s : State) : Host.Outcome State Fault Refusal :=
  answer (dispatch (.hrp v) (hrpRule v) s)

/-- `SEP()` (R78): the characters held, unchanged, then the separator (R85). -/
def sepRule (s : State) : Except ErrCode State :=
  push (s.hrpChars.map (fun c => c.setWidth 8) ++ [separator])
    { s with chk := polymodFrom s.chk (hrpExpand s.hrpChars), phase := .data }

/-- SEP (R78): close the prefix. -/
def execSep (s : State) : Host.Outcome State Fault Refusal :=
  answer (dispatch .sep sepRule s)

/-- `FIN()` (R80): FLUSH's conversion on the ENC route, then the checksum. -/
def finRule (s : State) : Except ErrCode State :=
  match convFlush s.acc.toNat s.cnt.toNat s.pad (fromBits s.dir) (toBits s.dir) with
  | none => .error .reject
  | some chunks =>
    let e := emit .enc s.chk chunks
    let c := finalise e.1
    push (e.2 ++ (sixSymbols c).map mapSymbol)
      { s with acc := 0#12, cnt := 0#4, chk := c, phase := .done }

/-- FIN (R80): end the payload and output the checksum. -/
def execFin (s : State) : Host.Outcome State Fault Refusal :=
  answer (dispatch .fin finRule s)

end Sys2Proof.Machine
end

