-- ==== Sys2Proof/Machine/Control.lean ====
section
/-! DEFINITION. The control commands NOP, CLR and CFG (43_control.md). -/

namespace Sys2Proof.Machine

/-- NOP (R90): no effect. -/
def execNop (s : State) : Host.Outcome State Fault Refusal :=
  answer (dispatch .nop (fun t => .ok t) s)

/-- CLR (R91): legal in every phase, ERR included, so no check of dispatch can turn it away. -/
def execClr (s : State) : Host.Outcome State Fault Refusal :=
  answer (doClr s)

/-- CFG (R92): set the configuration. -/
def execCfg (c : BitVec 3) (s : State) : Host.Outcome State Fault Refusal :=
  answer (dispatch (.cfg c) (fun t => .ok { t with cfg := c }) s)

end Sys2Proof.Machine
end

