-- ==== Sys2Proof/Machine/Converter.lean ====
section
/-! DEFINITION. The converter's commands DIN and FLUSH (40_converter.md). -/

namespace Sys2Proof.Machine

/-- `DIN(v)` (R68). -/
def dinRule (v : Byte) (s : State) : Except ErrCode State :=
  match dinOutOfRange s.dir v with
  | true => .error .range
  | false =>
    let r := convPush s.acc.toNat s.cnt.toNat v.toNat (fromBits s.dir) (toBits s.dir)
    let e := emit s.route s.chk r.chunks
    push e.2
      { s with acc := BitVec.ofNat 12 r.acc, cnt := BitVec.ofNat 4 r.cnt, chk := e.1,
               phase := rawPhase s.route .conv s.phase }

/-- DIN (R68): push one input value into the converter. -/
def execDin (v : Byte) (s : State) : Host.Outcome State Fault Refusal :=
  answer (dispatch (.din v) (dinRule v) s)

/-- `FLUSH()` (R69). -/
def flushRule (s : State) : Except ErrCode State :=
  match convFlush s.acc.toNat s.cnt.toNat s.pad (fromBits s.dir) (toBits s.dir) with
  | none => .error .reject
  | some chunks =>
    let e := emit s.route s.chk chunks
    push e.2
      { s with acc := 0#12, cnt := 0#4, chk := e.1, phase := rawPhase s.route .done s.phase }

/-- FLUSH (R69): end the converter's input. -/
def execFlush (s : State) : Host.Outcome State Fault Refusal :=
  answer (dispatch .flush flushRule s)

end Sys2Proof.Machine
end

