-- ==== Sys2Proof/Machine/Mapper.lean ====
section
/-! DEFINITION. The mapper's command SYM (42_mapper.md). -/

namespace Sys2Proof.Machine

/-- `SYM(s)` (R87). -/
def symRule (x : Symbol) (s : State) : Except ErrCode State :=
  push [mapSymbol x] { s with chk := polymodStep s.chk x }

/-- SYM (R87): deliver one symbol to the checksum and the mapper. -/
def execSym (x : Symbol) (s : State) : Host.Outcome State Fault Refusal :=
  answer (dispatch (.sym x) (symRule x) s)

end Sys2Proof.Machine
end

