-- ==== Sys2Proof/Machine/Dispatch.lean ====
section
/-! DEFINITION. One arm per command: the meaning of each (30_encoding.md R55, R62). -/

namespace Sys2Proof.Machine

def exec (i : Instr) (s : State) : Host.Outcome State Fault Refusal :=
  match i with
  | .nop => Sys2Proof.Machine.execNop s
  | .clr => Sys2Proof.Machine.execClr s
  | .cfg c => Sys2Proof.Machine.execCfg c s
  | .hrp v => Sys2Proof.Machine.execHrp v s
  | .sep => Sys2Proof.Machine.execSep s
  | .din v => Sys2Proof.Machine.execDin v s
  | .sym x => Sys2Proof.Machine.execSym x s
  | .flush => Sys2Proof.Machine.execFlush s
  | .fin => Sys2Proof.Machine.execFin s

end Sys2Proof.Machine
end

