-- ==== Sys2Proof/Machine/Flags.lean ====
section
/-! DEFINITION. The block's flags are the fields of STATUS (10_state.md R28): the codes of `phase` and `err`,
STATUS packed as R31 gives it, and the other registers as views of the state (R32, R34, R35). -/

namespace Sys2Proof.Machine

/-- The encoding of `phase` (R27). -/
def phaseBits : Phase → BitVec 3
  | .idle => 0#3
  | .hrp => 1#3
  | .data => 2#3
  | .conv => 3#3
  | .done => 4#3
  | .err => 7#3

/-- The encoding of `err` (R93). -/
def errBits : ErrCode → BitVec 4
  | .noError => 0#4
  | .illegalOpcode => 1#4
  | .illegalOperand => 2#4
  | .sequence => 3#4
  | .hrpChar => 4#4
  | .hrpFull => 5#4
  | .range => 6#4
  | .reject => 7#4
  | .overflow => 8#4

/-- `STATUS = {0b0000, cnt[3:0], hrp_len[7:0], len(fifo)[7:0], err[3:0], 0b0, phase[2:0]}` (R31). -/
def statusWord (s : State) : Word :=
  0#4 ++ s.cnt ++ s.hrpLen ++ BitVec.ofNat 8 s.fifo.length ++ errBits s.err ++ 0#1 ++ phaseBits s.phase

/-- OUT when an item is at the head: VALID in bit 8, the item in `[7:0]` (R33). -/
def outWord (x : Byte) : Word := (1#1 ++ x).setWidth 32

/-- The value a read of a register returns (20_memory.md R46); OUT shows the head of the FIFO (R33). -/
def regValue (r : Reg) (s : State) : Word :=
  match r with
  | .cmd => 0#32
  | .status => statusWord s
  | .cfg => s.cfg.setWidth 32
  | .out =>
    match s.fifo with
    | [] => 0#32
    | x :: _ => outWord x
  | .chk => s.chk.setWidth 32
  | .acc => s.acc.setWidth 32
  | .reserved18 => 0#32
  | .reserved1C => 0#32

end Sys2Proof.Machine
end

