-- ==== Sys2Proof/Machine/Bus.lean ====
section
/-! DEFINITION. The register window on the host's bus (20_memory.md): which register an address reaches, what a
read returns and does, what a write does, and the host's next access.  One access is one atomic step (R5, R43). -/

namespace Sys2Proof.Machine

/-- The error a word that is no command raises (30_encoding.md R57). -/
def decodeErrCode : DecodeError → ErrCode
  | .illegalOpcode => .illegalOpcode
  | .illegalOperand => .illegalOperand

/-- A word that is no command: ignored in ERR, an error in every other phase (R57, R95). -/
def rejectWord (e : DecodeError) (s : State) : State :=
  if s.phase = .err then s else raise (decodeErrCode e) s

/-- `Execute(w)` (R62).  The meanings hold the rest of its order: ERR, `WellFormed`, `Legal` (`dispatch`). -/
def execute (w : Word) (s : State) : Host.Outcome State Fault Refusal :=
  match decode w with
  | .ok i => exec i s
  | .error e => .next (rejectWord e s)

/-- The register at an offset in the window: address bits `[4:2]`; bits `[1:0]` are ignored (R29, R42). -/
def regAt (off : Nat) : Reg :=
  match (off / 4) % 8 with
  | 0 => .cmd
  | 1 => .status
  | 2 => .cfg
  | 3 => .out
  | 4 => .chk
  | 5 => .acc
  | 6 => .reserved18
  | _ => .reserved1C

/-- The register that an address reaches: none outside the 32 bytes from BASE (R45). -/
def regOfAddr (p : Params) (addr : Nat) : Option Reg :=
  if p.base ≤ addr ∧ addr < p.base + 32 then some (regAt (addr - p.base)) else none

/-- `BusRead(o)` (R46): the host gets the register's value; a read of OUT pops, no other read has an effect (R44). -/
def busRead (r : Reg) (s : State) : State :=
  let t := if r = .out then popOut s else s
  { t with readBack := s.readBack ++ [regValue r s] }

/-- `BusWrite(o, v)` (R46): a write of CMD executes a command, every other write is ignored. -/
def busWrite (r : Reg) (v : Word) (s : State) : Host.Outcome State Fault Refusal :=
  match r with
  | .cmd => execute v s
  | .status => .next s
  | .cfg => .next s
  | .out => .next s
  | .chk => .next s
  | .acc => .next s
  | .reserved18 => .next s
  | .reserved1C => .next s

/-- One move of the host (R51).  An access of another size than 4 bytes is refused (R42); one outside the window
does not reach the block (R45; log entry 8). -/
def hostAccess (a : Access) (s : State) : Host.Outcome State Fault Refusal :=
  match a with
  | .reset => .next (doReset s)
  | .read addr size =>
    if size ≠ 4 then .refused (.accessSize size)
    else
      match regOfAddr s.params addr with
      | some r => .next (busRead r s)
      | none => .next s
  | .write addr size v =>
    if size ≠ 4 then .refused (.accessSize size)
    else
      match regOfAddr s.params addr with
      | some r => busWrite r v s
      | none => .next s

/-- The host's next access, in its order (R47).  With none to come the block does nothing: it performs no step
of its own and keeps its state (R5, R104). -/
def serveNext (s : State) : Host.Outcome State Fault Refusal :=
  match s.pending with
  | [] => .next s
  | a :: rest => hostAccess a { s with pending := rest }

/-- The access that delivers a command: a write of its word to CMD (R30, R49). -/
def cmdWrite (p : Params) (w : Word) : Access := .write p.base 4 w

/-- Let the host's next access be the CMD write of `w`. -/
def deliver (w : Word) (s : State) : State :=
  { s with pending := cmdWrite s.params w :: s.pending }

end Sys2Proof.Machine
end

