-- ==== Sys2Proof/Machine/Step.lean ====
section
/-! DEFINITION. One step of the machine: one host access (00_scope.md R5). -/

namespace Sys2Proof.Machine

/-- One step: the host's next access. -/
def step (s : State) : Host.Outcome State Fault Refusal := serveNext s

/-- `s` with the command word `w` (`nbits` bits of it) about to be written to CMD: a command exists only as the
data of a CMD write (R49), so this is where the next step takes its instruction from (log entry 6). -/
def State.withFetchWord (s : State) (nbits w : Nat) : State := deliver (tableWord nbits w) s

end Sys2Proof.Machine
end

