-- ==== Sys2Proof/Machine/Assembler.lean ====
section
/-! DEFINITION. The assembler syntax of a host program (30_encoding.md R60, R61): one `Line` is one host access, a
`Pseudo` expands to lines, and both are read from a mnemonic and its operands as texts.  An operand outside its range
is refused, never truncated.  The block sees only the accesses; how a text splits into mnemonic and operands (spaces,
commas, comments) is left out (log entry 21). -/

namespace Sys2Proof.Machine

/-- A line of R60.  Numbers are unbounded, so that the assembler has something to refuse. -/
inductive Line where
  | nop
  | clr
  /-- `cfg <route>, <dir>, <pad>` -/
  | cfg (r : Route) (d : Dir) (pad : Bool)
  /-- `hrp <v>` -/
  | hrp (v : Nat)
  /-- `hrp 'c'` -/
  | hrpLit (c : Char)
  | sep
  /-- `din <v>` -/
  | din (v : Nat)
  /-- `sym <s>` -/
  | sym (n : Nat)
  /-- `sym '<c>'` -/
  | symLit (c : Char)
  | flush
  | fin
  /-- `rd <REG>` -/
  | rd (r : Reg)
  /-- `wr CMD, <word>` -/
  | wr (w : Word)
deriving DecidableEq, Repr

/-- `{ROUTE, DIR, PAD}` (R23). -/
def cfgBits (r : Route) (d : Dir) (pad : Bool) : BitVec 3 :=
  BitVec.ofBool (r == .raw) ++ BitVec.ofBool (d == .fiveToEight) ++ BitVec.ofBool pad

/-- The ASCII code of a character literal (R60); a character outside ASCII has none. -/
def asciiCode (c : Char) : Option Nat := if c.toNat < 128 then some c.toNat else none

/-- The command a line spells, if it spells one (R60). -/
def lineCommand (l : Line) : Option Instr :=
  match l with
  | .nop => some .nop
  | .clr => some .clr
  | .cfg r d pad => if CfgLegal (cfgBits r d pad) then some (.cfg (cfgBits r d pad)) else none
  | .hrp v => if v < 256 then some (.hrp (BitVec.ofNat 8 v)) else none
  | .hrpLit c => (asciiCode c).map (fun v => .hrp (BitVec.ofNat 8 v))
  | .sep => some .sep
  | .din v => if v < 256 then some (.din (BitVec.ofNat 8 v)) else none
  | .sym n => if n < 32 then some (.sym (BitVec.ofNat 5 n)) else none
  | .symLit c =>
    (asciiCode c).bind (fun v =>
      (alphabet.findIdx? (fun a => a == BitVec.ofNat 8 v)).map (fun n => .sym (BitVec.ofNat 5 n)))
  | .flush => some .flush
  | .fin => some .fin
  | .rd _ => none
  | .wr _ => none

/-- The offset of a register in the window (10_state.md R29). -/
def offsetOf : Reg → Nat
  | .cmd => 0x00
  | .status => 0x04
  | .cfg => 0x08
  | .out => 0x0C
  | .chk => 0x10
  | .acc => 0x14
  | .reserved18 => 0x18
  | .reserved1C => 0x1C

/-- The registers `rd` names (R60). -/
def rdNames : List Reg := [.status, .cfg, .out, .chk, .acc]

/-- The host access a line stands for, on an instance with parameters `p` (R60); `none`: the line is refused. -/
def assemble (p : Params) (l : Line) : Option Access :=
  match l with
  | .rd r => if r ∈ rdNames then some (.read (p.base + offsetOf r) 4) else none
  | .wr w => some (cmdWrite p w)
  | l => (lineCommand l).map (fun i => cmdWrite p (encode i))

/-- The pseudo-instructions (R61). -/
inductive Pseudo where
  | hrps (cs : List Char)
  | dins (bs : List Nat)
  | syms (xs : List Nat)
  | dinhex (hex : List Char)
  | drain (n : Nat)
  | encode (cs : List Char) (bs : List Nat)
deriving DecidableEq, Repr

/-- The value of a hexadecimal digit. -/
def hexDigit (c : Char) : Option Nat :=
  let n := c.toNat
  if 0x30 ≤ n ∧ n ≤ 0x39 then some (n - 0x30)
  else if 0x41 ≤ n ∧ n ≤ 0x46 then some (n - 0x41 + 10)
  else if 0x61 ≤ n ∧ n ≤ 0x66 then some (n - 0x61 + 10)
  else none

/-- The bytes of a hexadecimal string, first byte first (R61); an odd length or another character is refused. -/
def hexBytes : List Char → Option (List Nat)
  | [] => some []
  | [_] => none
  | c :: d :: rest =>
    match hexDigit c, hexDigit d, hexBytes rest with
    | some a, some b, some bs => some ((16 * a + b) :: bs)
    | _, _, _ => none

/-- The expansions of R61. -/
def expand : Pseudo → Option (List Line)
  | .hrps cs => some (cs.map .hrpLit)
  | .dins bs => some (bs.map .din)
  | .syms xs => some (xs.map .sym)
  | .dinhex hex => (hexBytes hex).map (fun bs => bs.map .din)
  | .drain n => some (List.replicate n (.rd .out))
  | .encode cs bs => some ([.clr] ++ cs.map .hrpLit ++ [.sep] ++ bs.map .din ++ [.fin])

/-! ### Reading a mnemonic and its operands -/

/-- The number that digits below `b` spell. -/
def digitsValue (b : Nat) (cs : List Char) : Option Nat :=
  cs.foldl (fun n c => match n, hexDigit c with
    | some m, some d => if d < b then some (m * b + d) else none
    | _, _ => none) (some 0)

/-- A number: decimal or `0x` hexadecimal (R60). -/
def numberText (cs : List Char) : Option Nat :=
  match cs with
  | [] => none
  | ['0', 'x'] => none
  | '0' :: 'x' :: ds => digitsValue 16 ds
  | ds => digitsValue 10 ds

/-- A text between two marks: a character literal is `'c'` (mark 0x27), a string is between marks 0x22 (R60, R61). -/
def between (mark : Nat) (cs : List Char) : Option (List Char) :=
  match cs with
  | a :: rest =>
    match rest.reverse with
    | b :: inner => if a.toNat = mark ∧ b.toNat = mark then some inner.reverse else none
    | [] => none
  | [] => none

/-- The one character of a literal. -/
def literalText (cs : List Char) : Option Char :=
  match between 0x27 cs with
  | some [c] => some c
  | _ => none

def routeText : String → Option Route
  | "enc" => some .enc
  | "raw" => some .raw
  | _ => none

def dirText : String → Option Dir
  | "8to5" => some .eightToFive
  | "5to8" => some .fiveToEight
  | _ => none

def padText : String → Option Bool
  | "pad" => some true
  | "nopad" => some false
  | _ => none

/-- The registers `rd` names (R60). -/
def regText : String → Option Reg
  | "STATUS" => some .status
  | "CFG" => some .cfg
  | "OUT" => some .out
  | "CHK" => some .chk
  | "ACC" => some .acc
  | _ => none

/-- An operand that is a number or a character literal. -/
def operandText (ofNumber : Nat → Line) (ofLiteral : Char → Line) (v : String) : Option Line :=
  match literalText v.toList with
  | some c => some (ofLiteral c)
  | none => (numberText v.toList).map ofNumber

/-- A line of R60 from its mnemonic and operands. -/
def lineText (mnemonic : String) (operands : List String) : Option Line :=
  match mnemonic, operands with
  | "nop", [] => some .nop
  | "clr", [] => some .clr
  | "cfg", [r, d, p] =>
    match routeText r, dirText d, padText p with
    | some r, some d, some p => some (.cfg r d p)
    | _, _, _ => none
  | "hrp", [v] => operandText .hrp .hrpLit v
  | "sep", [] => some .sep
  | "din", [v] => (numberText v.toList).map .din
  | "sym", [v] => operandText .sym .symLit v
  | "flush", [] => some .flush
  | "fin", [] => some .fin
  | "rd", [r] => (regText r).map .rd
  | "wr", ["CMD", w] =>
    (numberText w.toList).bind (fun n => if n < 2 ^ 32 then some (.wr (BitVec.ofNat 32 n)) else none)
  | _, _ => none

/-- A pseudo-instruction of R61 from its mnemonic and operands. -/
def pseudoText (mnemonic : String) (operands : List String) : Option Pseudo :=
  match mnemonic, operands with
  | "hrps", [t] => (between 0x22 t.toList).map .hrps
  | "dins", b :: bs => ((b :: bs).mapM (fun v => numberText v.toList)).map .dins
  | "syms", x :: xs => ((x :: xs).mapM (fun v => numberText v.toList)).map .syms
  | "dinhex", [t] => (between 0x22 t.toList).map .dinhex
  | "drain", [n] => (numberText n.toList).map .drain
  | "encode", t :: b :: bs =>
    match between 0x22 t.toList, (b :: bs).mapM (fun v => numberText v.toList) with
    | some h, some vs => some (.encode h vs)
    | _, _ => none
  | _, _ => none

end Sys2Proof.Machine
end

