-- ==== Sys2Proof/Safety.lean ====
section
/-! DEFINITION. The terms that claims use: the invariant of the block (10_state.md R38), when a session's result
counts (60_exceptions.md R98, 70_reset_and_hazards.md R115, R117), the tables of the rules a claim holds the machine
against, and the source's functions over whole sequences (40_converter.md R70, 41_checksum.md R81, 42_mapper.md
R86), written apart from the machine's incremental ones. -/

namespace Sys2Proof.Machine

/-! ### The invariant -/

/-- What holds between any two host accesses: R38 (a) to (f), the ranges of R15, the constraints of R6, and what
R27 says each phase holds. -/
structure Inv (s : State) : Prop where
  /-- R6 -/
  params : s.params.Wf
  /-- R38(a) -/
  err_iff : s.err = .noError ↔ s.phase ≠ .err
  /-- R38(b) -/
  err_fifo : s.phase = .err → s.fifo = []
  /-- R38(c), R18 -/
  cnt_lt : s.cnt.toNat < toBits s.dir
  /-- R38(c) -/
  cnt_zero : s.phase = .idle ∨ s.phase = .hrp ∨ s.phase = .done → s.cnt = 0#4
  /-- R38(d) -/
  hrp_zero : s.route = .raw ∨ s.phase = .idle → s.hrpLen = 0#8
  /-- R38(e) -/
  chk_one : s.phase = .idle ∨ s.phase = .hrp ∨ s.route = .raw → s.chk = 1#30
  /-- R38(f), R24 -/
  cfg_legal : CfgLegal s.cfg
  /-- R15, R21 -/
  hrp_le : s.hrpLen.toNat ≤ s.params.hrpMax
  /-- R15, R20 -/
  buf_len : s.hrpBuf.length = s.params.hrpMax
  /-- R15, R22 -/
  fifo_le : s.fifo.length ≤ s.params.outDepth
  /-- R27, R63: HRP and DATA occur on the ENC route only, with at least one character held. -/
  enc_phase : s.phase = .hrp ∨ s.phase = .data → s.route = .enc ∧ 0 < s.hrpLen.toNat
  /-- R27, R63: CONV occurs on the RAW route only. -/
  raw_phase : s.phase = .conv → s.route = .raw
  /-- R27: nothing is delivered in IDLE; HRP pushes nothing (R77). -/
  empty : s.phase = .idle ∨ s.phase = .hrp → s.fifo = [] ∧ s.acc = 0#12
  /-- R27: a RAW result is complete after FLUSH, an ENC result after FIN, with a prefix. -/
  done_enc : s.phase = .done → s.route = .enc → 0 < s.hrpLen.toNat

/-- A result counts only in DONE with no error (R98, R115, R117). -/
def ResultValid (s : State) : Prop := s.phase = .done ∧ s.err = .noError

/-- `s` and `t` differ at most in the entries of `hrp_buf` at index `hrp_len` and above, which R14 calls
unobservable. -/
def SameVisible (s t : State) : Prop :=
  t = { s with hrpBuf := t.hrpBuf } ∧ t.hrpBuf.length = s.hrpBuf.length ∧ t.hrpChars = s.hrpChars

/-! ### Runs of commands -/

/-- Commands one after the other. -/
def execAll : List Instr → State → Host.Outcome State Fault Refusal
  | [], s => .next s
  | i :: is, s =>
    match exec i s with
    | .next t => execAll is t
    | .fault r => .fault r
    | .refused r => .refused r

/-! ### Tables of the rules -/

/-- The opcode of a word as a number: `w[15:12]` (R52). -/
def opNumber (w : Word) : Nat := w.toNat / 4096 % 16

/-- `WellFormed(w)` of R56, on the word as a number. -/
def WordWellFormed (w : Word) : Prop :=
  w.toNat / 65536 = 0 ∧ w.toNat / 256 % 16 = 0 ∧
  (opNumber w ∈ [0, 1, 4, 7, 8] → w.toNat % 256 = 0) ∧
  (opNumber w = 2 → w.toNat % 256 / 8 = 0 ∧ w.toNat % 8 ∉ [2, 3]) ∧
  (opNumber w = 6 → w.toNat % 256 / 32 = 0)

/-- The table of R63: the phases in which a command is legal, for each route. -/
def legalPhases : Op → Route → List Phase
  | .nop, _ => [.idle, .hrp, .data, .conv, .done]
  | .clr, _ => [.idle, .hrp, .data, .conv, .done]
  | .cfg, _ => [.idle]
  | .hrp, .enc => [.idle, .hrp]
  | .hrp, .raw => []
  | .sep, .enc => [.hrp]
  | .sep, .raw => []
  | .din, .enc => [.data]
  | .din, .raw => [.idle, .conv]
  | .sym, .enc => [.data]
  | .sym, .raw => []
  | .flush, .enc => [.data]
  | .flush, .raw => [.idle, .conv]
  | .fin, .enc => [.data]
  | .fin, .raw => []

/-- The table of R114: how many items a command pushes, at most. -/
def maxItems (i : Instr) (s : State) : Nat :=
  match i with
  | .nop => 0
  | .clr => 0
  | .cfg _ => 0
  | .hrp _ => 0
  | .sep => s.hrpLen.toNat + 1
  | .din _ =>
    match s.dir with
    | .eightToFive => 2
    | .fiveToEight => 1
  | .sym _ => 1
  | .flush => 1
  | .fin => 7

/-! ### The source's functions over whole sequences -/

/-- The item a chunk becomes: a character on the ENC route, the chunk itself on the RAW route (R67). -/
def itemOf (r : Route) (c : Nat) : Byte :=
  match r with
  | .enc => mapSymbol (BitVec.ofNat 5 c)
  | .raw => BitVec.ofNat 8 c

/-- The polymod state after the chunks of a route: only ENC feeds them to the checksum (R67). -/
def chkAfter (r : Route) (c : Chk) (cs : List Nat) : Chk :=
  match r with
  | .enc => polymodFrom c (cs.map (BitVec.ofNat 5))
  | .raw => c

/-- The whole `wo`-bit chunks of an `n`-bit number, the most significant first (R65). -/
def wholeChunks (a n wo : Nat) : List Nat :=
  (List.range (n / wo)).map (fun k => a / 2 ^ (n - (k + 1) * wo) % 2 ^ wo)

/-- The bits of a `w`-bit value, most significant first (20_memory.md R39). -/
def bitsOf (w v : Nat) : List Bool := (List.range w).map (fun i => v.testBit (w - 1 - i))

/-- The number that bits spell, most significant first. -/
def numberOf (bs : List Bool) : Nat := bs.foldl (fun a b => 2 * a + b.toNat) 0

/-- The source's `convert(data, from, to, pad)` on a whole sequence (R39, R64, R66): the values' bits as one
stream, cut into `wo`-bit chunks; what is left is padded with zeros, or must be fewer than `wi` bits, all zero.
`none` is "no result". -/
def convert (wi wo : Nat) (pad : Bool) (vs : List Nat) : Option (List Nat) :=
  let bs := vs.flatMap (bitsOf wi)
  let q := bs.length / wo
  let whole := (List.range q).map (fun j => numberOf ((bs.drop (j * wo)).take wo))
  let left := bs.drop (q * wo)
  if pad then
    some (whole ++ if left = [] then [] else [numberOf (left ++ List.replicate (wo - left.length) false)])
  else if wi ≤ left.length ∨ true ∈ left then none
  else some whole

/-- The source's checksum value over a prefix and payload symbols (R81). -/
def checksum (h : List HrpChar) (d : List Symbol) : Chk :=
  polymodFrom 1#30 (hrpExpand h ++ d ++ List.replicate 6 0#5) ^^^ 1#30

/-- Symbol `i` of a checksum value: `(result >> (5*(5-i))) & 31` for `i` in 0..5 (R40). -/
def checksumSymbols (c : Chk) : List Symbol :=
  (List.range 6).map (fun i => BitVec.ofNat 5 (c.toNat / 2 ^ (5 * (5 - i)) % 32))

/-- The source's encoder: prefix, `1`, payload characters, checksum characters (R86). -/
def addressItems (h : List HrpChar) (d : List Symbol) : List Byte :=
  h.map (fun c => c.setWidth 8) ++ [0x31#8] ++ d.map mapSymbol ++ (checksumSymbols (checksum h d)).map mapSymbol

end Sys2Proof.Machine
end

