-- ==== Sys2Proof/Certificates/Slice0/Obligations.lean ====
section
/-! DEFINITION. The statements for the provers.  Each docstring names the rule of spec/ it formalises, or the model's
log entry where it rests on one.  `Inv` is the invariant of R38 (Safety.lean); it is itself a statement below. -/

open Sys2Proof Sys2Proof.Machine

/-! ### Encoding and dispatch (30_encoding.md) -/

/-- R52 to R56: a word decodes to `i` exactly when `i` is well formed and the word is its encoding, so decode and
encode agree in both directions and no bit of a word is dropped. -/
def Obligations.DecodeIsInverseOfEncode : Prop :=
  ∀ (w : Word) (i : Instr), decode w = .ok i ↔ i.WellFormed ∧ encode i = w

/-- R56: of the words whose OP is 0x0 to 0x8, exactly the well-formed ones are commands. -/
def Obligations.WellFormedWordsAreTheCommands : Prop :=
  ∀ w : Word, opNumber w ≤ 8 → (WordWellFormed w ↔ ∃ i, decode w = .ok i)

/-- R55: one word of each command, written out bit by bit from its format, decodes to that command. -/
def Obligations.SampleWordsDecode : Prop :=
  decode 0b00000000000000000000000000000000#32 = .ok .nop ∧
  decode 0b00000000000000000001000000000000#32 = .ok .clr ∧
  decode 0b00000000000000000010000000000110#32 = .ok (.cfg 0b110#3) ∧
  decode 0b00000000000000000011000001100001#32 = .ok (.hrp 0x61#8) ∧
  decode 0b00000000000000000100000000000000#32 = .ok .sep ∧
  decode 0b00000000000000000101000011111111#32 = .ok (.din 0xff#8) ∧
  decode 0b00000000000000000110000000011111#32 = .ok (.sym 31#5) ∧
  decode 0b00000000000000000111000000000000#32 = .ok .flush ∧
  decode 0b00000000000000001000000000000000#32 = .ok .fin

/-- R57: outside ERR, OP 0x9 to 0xF raises ILLEGAL_OPCODE, whatever the other bits, and an ill-formed word of a
known OP raises ILLEGAL_OPERAND, in every phase; in ERR every word but 0x00001000 is ignored. -/
def Obligations.IllegalWordsRaise : Prop :=
  ∀ (s : State) (w : Word),
    (s.phase ≠ .err → 9 ≤ opNumber w →
      execute w s = .next { s with err := .illegalOpcode, phase := .err, fifo := [] }) ∧
    (s.phase ≠ .err → opNumber w ≤ 8 → ¬ WordWellFormed w →
      execute w s = .next { s with err := .illegalOperand, phase := .err, fifo := [] }) ∧
    (s.phase = .err → w ≠ 0x00001000#32 → execute w s = .next s)

/-- R62: `Execute(w)` as the rule writes it, for the word of every well-formed command: ERR first, then `Legal`, then
the command.  (Words that are no command: IllegalWordsRaise.) -/
def Obligations.ExecuteFollowsDispatchOrder : Prop :=
  ∀ (s : State) (i : Instr), i.WellFormed →
    execute (encode i) s =
      if s.phase = .err then (if i = .clr then exec .clr s else .next s)
      else if s.phase ∉ legalPhases i.op s.route then
        .next { s with err := .sequence, phase := .err, fifo := [] }
      else exec i s

/-- R63: in a state the block can be in, outside ERR, a command raises SEQUENCE when the table does not list the
phase for its route, and runs, raising no SEQUENCE, when it does; HRP and DATA occur only with ENC, CONV only with
RAW. -/
def Obligations.LegalTableDecidesSequence : Prop :=
  ∀ (s : State) (i : Instr), Inv s → s.phase ≠ .err → i.WellFormed →
    (s.phase ∉ legalPhases i.op s.route →
      exec i s = .next { s with err := .sequence, phase := .err, fifo := [] }) ∧
    (s.phase ∈ legalPhases i.op s.route → ∃ t, exec i s = .next t ∧ t.err ≠ .sequence) ∧
    (s.phase = .hrp ∨ s.phase = .data → s.route = .enc) ∧
    (s.phase = .conv → s.route = .raw)

/-! ### Errors (60_exceptions.md) -/

/-- R94: a raise ends the word that raised it with no other effect than `err`, `phase` and the emptied FIFO, the host
sees the code in STATUS, and every later word but CLR has no effect. -/
def Obligations.RaiseHasNoOtherEffect : Prop :=
  ∀ (s t : State) (w : Word), s.phase ≠ .err → execute w s = .next t → t.phase = .err →
    t = { s with err := t.err, phase := .err, fifo := [] } ∧ t.err ≠ .noError ∧
    (regValue .status t).toNat / 16 % 16 = (errBits t.err).toNat ∧
    ∀ w' : Word, w' ≠ 0x00001000#32 → execute w' t = .next t

/-- R95: in ERR every word but exactly 0x00001000 changes no state, so `err` keeps the first error's code; register
reads work as in any phase, and OUT reads return 0. -/
def Obligations.ErrorPhaseIgnoresAllButClr : Prop :=
  ∀ s : State, Inv s → s.phase = .err →
    (∀ w : Word, w ≠ 0x00001000#32 → execute w s = .next s) ∧
    (∃ t, execute 0x00001000#32 s = .next t ∧ t.phase = .idle ∧ t.err = .noError) ∧
    (∀ r : Reg, busRead r s = { s with readBack := s.readBack ++ [regValue r s] }) ∧
    regValue .out s = 0#32

/-- R96: a step leaves ERR exactly when it is a reset or a CMD write of 0x00001000, which open a new, empty session;
any other step keeps the first error's code. -/
def Obligations.OnlyClrOrResetLeavesError : Prop :=
  ∀ s t : State, Inv s → s.phase = .err → step s = .next t →
    (t.phase ≠ .err ↔
      ∃ rest, s.pending = .reset :: rest ∨
        ∃ a, s.pending = .write a 4 0x00001000#32 :: rest ∧ s.params.base ≤ a ∧ a < s.params.base + 4) ∧
    (t.phase ≠ .err →
      t.phase = .idle ∧ t.err = .noError ∧ t.acc = 0#12 ∧ t.cnt = 0#4 ∧ t.chk = 1#30 ∧ t.hrpLen = 0#8 ∧
      t.fifo = []) ∧
    (t.phase = .err → t.err = s.err)

/-! ### Registers and the bus (10_state.md, 20_memory.md) -/

/-- R31: STATUS as a number, field by field, the reserved bits 0; reading it has no side effect and writing it no effect;
it reads 0 after reset. -/
def Obligations.StatusPacksItsFields : Prop :=
  (∀ s : State, Inv s →
    (regValue .status s).toNat =
      (phaseBits s.phase).toNat + 2 ^ 4 * (errBits s.err).toNat + 2 ^ 8 * s.fifo.length +
        2 ^ 16 * s.hrpLen.toNat + 2 ^ 24 * s.cnt.toNat ∧
    busRead .status s = { s with readBack := s.readBack ++ [regValue .status s] } ∧
    ∀ v : Word, busWrite .status v s = .next s) ∧
  ∀ p : Params, regValue .status (State.resetWith p) = 0#32

/-- R33: a read of OUT returns the head item with VALID in bit 8 and removes it; a read of an empty FIFO returns 0
and changes nothing; a write is ignored; OUT reads 0 after reset. -/
def Obligations.OutReadPopsTheHead : Prop :=
  (∀ (s : State) (x : Byte) (rest : List Byte), s.fifo = x :: rest →
    busRead .out s = { s with fifo := rest, readBack := s.readBack ++ [BitVec.ofNat 32 (2 ^ 8 + x.toNat)] }) ∧
  (∀ s : State, s.fifo = [] → busRead .out s = { s with readBack := s.readBack ++ [0#32] }) ∧
  (∀ (s : State) (v : Word), busWrite .out v s = .next s) ∧
  (∀ p : Params, regValue .out (State.resetWith p) = 0#32)

/-- R34, R35, R36: CHK and ACC show their field zero-extended, the reserved offsets read 0; reads have no side effect,
writes are ignored; the values after reset. -/
def Obligations.ChkAccAndReservedAreViews : Prop :=
  (∀ s : State,
    (regValue .chk s).toNat = s.chk.toNat ∧ (regValue .acc s).toNat = s.acc.toNat ∧
    regValue .reserved18 s = 0#32 ∧ regValue .reserved1C s = 0#32 ∧
    ∀ r ∈ [Reg.chk, Reg.acc, Reg.reserved18, Reg.reserved1C],
      busRead r s = { s with readBack := s.readBack ++ [regValue r s] } ∧ ∀ v, busWrite r v s = .next s) ∧
  ∀ p : Params, regValue .chk (State.resetWith p) = 1#32 ∧ regValue .acc (State.resetWith p) = 0#32

/-- R46: what each offset of the window returns and does, by `off & 0x1C`; no access raises a bus error. -/
def Obligations.BusPrimitivesByOffset : Prop :=
  ∀ (s : State) (off : Nat), off < 32 →
    let rd (w : Word) (t : State) : State := { t with readBack := s.readBack ++ [w] }
    let got := hostAccess (.read (s.params.base + off) 4) s
    (off &&& 0x1C = 0x00 → got = .next (rd 0#32 s)) ∧
    (off &&& 0x1C = 0x04 → got = .next (rd (statusWord s) s)) ∧
    (off &&& 0x1C = 0x08 → got = .next (rd (BitVec.ofNat 32 s.cfg.toNat) s)) ∧
    (off &&& 0x1C = 0x0C → got = .next (rd (regValue .out s) { s with fifo := s.fifo.drop 1 })) ∧
    (off &&& 0x1C = 0x10 → got = .next (rd (BitVec.ofNat 32 s.chk.toNat) s)) ∧
    (off &&& 0x1C = 0x14 → got = .next (rd (BitVec.ofNat 32 s.acc.toNat) s)) ∧
    (off &&& 0x1C = 0x18 ∨ off &&& 0x1C = 0x1C → got = .next (rd 0#32 s)) ∧
    ∀ v : Word,
      (off &&& 0x1C = 0x00 →
        hostAccess (.write (s.params.base + off) 4 v) s = execute v s ∧ ∃ t, execute v s = .next t) ∧
      (off &&& 0x1C ≠ 0x00 → hostAccess (.write (s.params.base + off) 4 v) s = .next s)

/-- Address bits [1:0] are ignored inside the window, and an access of another size than 4 bytes has no step, at any
address.  20_memory.md section 2 (R42) says both of the window; that an access with such address bits is served at all,
where 93_implementation_defined.md U12 refuses it, is the model's reading (log entry 7, DEDUCED), and that another size
is refused outside the window too is the model's own choice (log entry 9, DESIGN CHOICE). -/
def Obligations.LowAddressBitsIgnoredOtherSizesRefused : Prop :=
  ∀ s : State,
    (∀ off < 32,
      hostAccess (.read (s.params.base + off) 4) s = hostAccess (.read (s.params.base + (off &&& 0x1C)) 4) s ∧
      ∀ v, hostAccess (.write (s.params.base + off) 4 v) s =
        hostAccess (.write (s.params.base + (off &&& 0x1C)) 4 v) s) ∧
    ∀ (a size : Nat), size ≠ 4 →
      hostAccess (.read a size) s = .refused (.accessSize size) ∧
      ∀ v, hostAccess (.write a size v) s = .refused (.accessSize size)

/-- R45's last sentence: an access outside the 32 bytes from BASE does not reach the block.  That the model lets it
pass with no effect and no value is its own choice (log entry 8). -/
def Obligations.OutsideTheWindowNothingHappens : Prop :=
  ∀ (s : State) (a : Nat), a < s.params.base ∨ s.params.base + 32 ≤ a →
    hostAccess (.read a 4) s = .next s ∧ ∀ v, hostAccess (.write a 4 v) s = .next s

/-- R5, R44: a step changes the block's own state only by a reset, a CMD write, or an OUT read that finds an item. -/
def Obligations.OnlyCommandsOutReadsAndResetChangeTheBlock : Prop :=
  ∀ s t : State, step s = .next t →
    t ≠ { s with pending := t.pending, readBack := t.readBack } →
    ∃ rest, s.pending = .reset :: rest ∨
      (∃ a v, s.pending = .write a 4 v :: rest ∧ s.params.base ≤ a ∧ a < s.params.base + 4) ∨
      (∃ a, s.pending = .read a 4 :: rest ∧ s.params.base + 0x0C ≤ a ∧ a < s.params.base + 0x10 ∧ s.fifo ≠ [])

/-- A reset from any state leaves the values of R106 and is seen in the registers; the machine's first state has them
too.  R106 leaves `hrp_buf` unspecified: that a reset keeps it is the model's own choice (log entry 3, DESIGN CHOICE),
and that a reset keeps `params`, `pending` and `readBack` is the model's reading (log entry 15, DEDUCED). -/
def Obligations.ResetLeavesTheStatedValues : Prop :=
  (∀ s : State, ∃ t, hostAccess .reset s = .next t ∧
    t = { s with
      cfg := 0b001#3, phase := .idle, err := .noError, acc := 0#12, cnt := 0#4, chk := 1#30, hrpLen := 0#8,
      fifo := [] } ∧
    regValue .status t = 0#32 ∧ regValue .cfg t = 1#32 ∧ regValue .chk t = 1#32 ∧ regValue .acc t = 0#32 ∧
    regValue .out t = 0#32 ∧ regValue .cmd t = 0#32 ∧ regValue .reserved18 t = 0#32 ∧
    regValue .reserved1C t = 0#32) ∧
  ∀ p : Params, ∃ s : State, hostAccess .reset s = .next (State.resetWith p)

/-- A step runs the decoded command: when the host's next access is a CMD write of a word that decodes to `i`, the
step is `exec i` with that access served; a step with no access to come changes nothing (R5, R30, R49; the queue of
accesses is the model's, log entry 4). -/
def Obligations.StepRunsTheDecodedCommand : Prop :=
  (∀ (s : State) (a : Nat) (w : Word) (i : Instr) (rest : List Access),
    s.pending = .write a 4 w :: rest → s.params.base ≤ a → a < s.params.base + 4 → decode w = .ok i →
    step s = exec i { s with pending := rest }) ∧
  ∀ s : State, s.pending = [] → step s = .next s

/-- Placing a well-formed command as the next CMD write makes the very next step run it, from any state (log
entry 6). -/
def Obligations.FetchWordRunsNext : Prop :=
  ∀ (s : State) (i : Instr), i.WellFormed → step (s.withFetchWord 32 (encode i).toNat) = exec i s

/-- R47, R49: a host that writes command words one after the other to CMD runs the commands in that order (the queue
of accesses is the model's, log entry 4). -/
def Obligations.CommandWritesRunInOrder : Prop :=
  ∀ (is : List Instr) (s : State) (rest : List Access), (∀ i ∈ is, i.WellFormed) →
    s.pending = is.map (fun i => cmdWrite s.params (encode i)) ++ rest →
    Host.Core.run Sys2Proof.core is.length s = execAll is { s with pending := rest }

/-! ### Control commands (43_control.md) -/

/-- R90: NOP has no effect, in any phase; a word with OP 0 and another bit set is ILLEGAL_OPERAND outside ERR; from
reset, NOP leaves STATUS 0. -/
def Obligations.NopDoesNothing : Prop :=
  (∀ s : State, exec .nop s = .next s ∧ execute 0x00000000#32 s = .next s) ∧
  (∀ (s : State) (w : Word), opNumber w = 0 → w ≠ 0x00000000#32 → s.phase ≠ .err →
    execute w s = .next { s with err := .illegalOperand, phase := .err, fifo := [] }) ∧
  ∃ t, exec .nop State.reset = .next t ∧ regValue .status t = 0#32

/-- R91: CLR, in every phase, writes every field but `cfg` and `hrp_buf`; a word with OP 1 and another bit set is
ILLEGAL_OPERAND outside ERR and ignored in ERR. -/
def Obligations.ClrOpensANewSession : Prop :=
  (∀ s : State,
    ∃ t, exec .clr s = .next t ∧
      t = { s with
        acc := 0#12, cnt := 0#4, chk := 1#30, hrpLen := 0#8, fifo := [], phase := .idle, err := .noError } ∧
      regValue .status t = 0#32 ∧ execute 0x00001000#32 s = exec .clr s) ∧
  ∀ (s : State) (w : Word), opNumber w = 1 → w ≠ 0x00001000#32 →
    execute w s =
      .next (if s.phase = .err then s else { s with err := .illegalOperand, phase := .err, fifo := [] })

/-- R92: CFG in IDLE sets `cfg` and nothing else; its word is 0x00002000 + c; `w[7:3] ≠ 0` or c = 2 or 3 is
ILLEGAL_OPERAND in every phase but ERR; elsewhere than IDLE it is a SEQUENCE error. -/
def Obligations.CfgSetsTheConfiguration : Prop :=
  (∀ (s : State) (c : BitVec 3), CfgLegal c → s.phase = .idle →
    exec (.cfg c) s = .next { s with cfg := c } ∧
    execute (BitVec.ofNat 32 (0x00002000 + c.toNat)) s = exec (.cfg c) s) ∧
  (∀ (s : State) (w : Word), opNumber w = 2 → s.phase ≠ .err →
    w.toNat % 256 / 8 ≠ 0 ∨ w.toNat % 8 = 2 ∨ w.toNat % 8 = 3 →
    execute w s = .next { s with err := .illegalOperand, phase := .err, fifo := [] }) ∧
  ∀ (s : State) (c : BitVec 3), CfgLegal c → s.phase ≠ .idle → s.phase ≠ .err →
    exec (.cfg c) s = .next { s with err := .sequence, phase := .err, fifo := [] }

/-! ### Checksum commands (41_checksum.md) -/

/-- R77: HRP, in IDLE or HRP of the ENC route, with a code below 0x80 and room in the buffer, appends the character to
the ones held and enters HRP; nothing else changes but the buffer and its length. -/
def Obligations.HrpAppendsACharacter : Prop :=
  ∀ (s : State) (v : Byte), Inv s → s.route = .enc → s.phase = .idle ∨ s.phase = .hrp → v.toNat < 0x80 →
    s.hrpLen.toNat ≠ s.params.hrpMax →
    ∃ t, exec (.hrp v) s = .next t ∧ t.hrpChars = s.hrpChars ++ [BitVec.ofNat 7 v.toNat] ∧
      t.hrpLen.toNat = s.hrpLen.toNat + 1 ∧
      t = { s with hrpBuf := t.hrpBuf, hrpLen := t.hrpLen, phase := .hrp }

/-- R77: HRP raises HRP_CHAR for a code of 0x80 or above, checked first, and HRP_FULL for a character beyond
`HRP_MAX`. -/
def Obligations.HrpTraps : Prop :=
  ∀ (s : State) (v : Byte), s.route = .enc → s.phase = .idle ∨ s.phase = .hrp →
    (0x80 ≤ v.toNat → exec (.hrp v) s = .next { s with err := .hrpChar, phase := .err, fifo := [] }) ∧
    (v.toNat < 0x80 → s.hrpLen.toNat = s.params.hrpMax →
      exec (.hrp v) s = .next { s with err := .hrpFull, phase := .err, fifo := [] })

/-- R78: SEP, in HRP of the ENC route, runs the expansion of the prefix (R76) through the polymod, pushes the prefix and
0x31, and enters DATA; when the items do not fit it raises OVERFLOW (which no state of a run can meet: R114). -/
def Obligations.SepClosesThePrefix : Prop :=
  ∀ s : State, s.route = .enc → s.phase = .hrp →
    (s.fifo.length + (s.hrpChars.length + 1) ≤ s.params.outDepth →
      exec .sep s = .next { s with
        chk := polymodFrom s.chk
          (s.hrpChars.map (fun c => BitVec.ofNat 5 (c.toNat / 32)) ++ [0#5] ++
            s.hrpChars.map (fun c => BitVec.ofNat 5 (c.toNat % 32))),
        fifo := s.fifo ++ s.hrpChars.map (fun c => BitVec.ofNat 8 c.toNat) ++ [0x31#8],
        phase := .data }) ∧
    (s.params.outDepth < s.fifo.length + (s.hrpChars.length + 1) →
      exec .sep s = .next { s with err := .overflow, phase := .err, fifo := [] })

/-- R80: FIN, in DATA of the ENC route: when the buffered bits can be represented and the items fit, it feeds the
padded last chunk (if PAD = 1 and `cnt > 0`) and six zeros to the polymod, XORs 1, pushes that chunk's and the six
symbols' characters, clears `acc` and `cnt` and enters DONE. -/
def Obligations.FinPushesTheChecksum : Prop :=
  ∀ s : State, Inv s → s.route = .enc → s.phase = .data →
    (s.pad = true ∨ s.acc.toNat % 2 ^ s.cnt.toNat = 0) →
    let last : List Nat :=
      if s.pad = true ∧ 0 < s.cnt.toNat then [s.acc.toNat % 2 ^ s.cnt.toNat * 2 ^ (5 - s.cnt.toNat)] else []
    let c := polymodFrom s.chk (last.map (BitVec.ofNat 5) ++ List.replicate 6 0#5) ^^^ 1#30
    s.fifo.length + (last.length + 6) ≤ s.params.outDepth →
    exec .fin s = .next { s with
      acc := 0#12, cnt := 0#4, chk := c,
      fifo := s.fifo ++ (last.map (BitVec.ofNat 5) ++ checksumSymbols c).map mapSymbol, phase := .done }

/-- R80: FIN raises REJECT when PAD = 0 and the buffered bits are not all zero, whatever room there is, and otherwise
OVERFLOW when its 6 or 7 items do not fit. -/
def Obligations.FinTraps : Prop :=
  ∀ s : State, Inv s → s.route = .enc → s.phase = .data →
    (s.pad = false → s.acc.toNat % 2 ^ s.cnt.toNat ≠ 0 →
      exec .fin s = .next { s with err := .reject, phase := .err, fifo := [] }) ∧
    (s.pad = true ∨ s.acc.toNat % 2 ^ s.cnt.toNat = 0 →
      s.params.outDepth < s.fifo.length + (if s.pad = true ∧ 0 < s.cnt.toNat then 7 else 6) →
      exec .fin s = .next { s with err := .overflow, phase := .err, fifo := [] })

/-- R74, R75: `PolymodStep` on unbounded naturals as the rule writes it, with the five constants; the result is below
2^30. -/
def Obligations.PolymodStepOnNaturals : Prop :=
  ∀ (c : Chk) (v : Symbol),
    let b := c.toNat >>> 25
    let g (i k : Nat) : Nat := if b.testBit i then k else 0
    (polymodStep c v).toNat =
      (((c.toNat &&& 0x1ffffff) <<< 5) ^^^ v.toNat) ^^^ g 0 0x3b6a57b2 ^^^ g 1 0x26508e6d ^^^ g 2 0x1ea119fa ^^^
        g 3 0x3d4233dd ^^^ g 4 0x2a1462b3

/-- R82's reason: each polymod step is linear over GF(2) in the state and the value together. -/
def Obligations.PolymodStepIsLinear : Prop :=
  ∀ (a b : Chk) (u v : Symbol), polymodStep (a ^^^ b) (u ^^^ v) = polymodStep a u ^^^ polymodStep b v

/-- R82: in DATA after the payload `d` of prefix `h`, delivering by SYM the six checksum symbols of `(h, d)` leaves
`chk = 1`, given room for the six items. -/
def Obligations.ChecksumFedBackLeavesOne : Prop :=
  ∀ (s : State) (h : List HrpChar) (d : List Symbol), Inv s → s.route = .enc → s.phase = .data →
    s.chk = polymodFrom 1#30 (hrpExpand h ++ d) → s.fifo.length + 6 ≤ s.params.outDepth →
    ∃ t, execAll ((checksumSymbols (checksum h d)).map .sym) s = .next t ∧
      t.chk = 1#30 ∧ t.phase = .data ∧ t.err = .noError

/-! ### Converter commands (40_converter.md) -/

/-- R65, R67, R68: DIN, where legal, with a value that fits `from` and room for its chunks: the accumulator is shifted
and takes the value, the whole chunks are cut from the top of the pending bits, the count keeps the remainder; each
chunk goes to the checksum and the mapper (ENC) or to the FIFO (RAW). -/
def Obligations.DinConvertsAndEmits : Prop :=
  ∀ (s : State) (v : Byte), Inv s → s.phase ∈ legalPhases .din s.route → v.toNat < 2 ^ fromBits s.dir →
    let n := s.cnt.toNat + fromBits s.dir
    let a := s.acc.toNat * 2 ^ fromBits s.dir + v.toNat
    let cs := wholeChunks a n (toBits s.dir)
    s.fifo.length + n / toBits s.dir ≤ s.params.outDepth →
    exec (.din v) s = .next { s with
      acc := BitVec.ofNat 12 (a % 4096), cnt := BitVec.ofNat 4 (n % toBits s.dir), chk := chkAfter s.route s.chk cs,
      fifo := s.fifo ++ cs.map (itemOf s.route), phase := if s.route = .raw then .conv else s.phase }

/-- R68: DIN raises RANGE in 5-to-8 for a value of 32 or more, whatever room there is, and otherwise OVERFLOW when its
chunks do not fit. -/
def Obligations.DinTraps : Prop :=
  ∀ (s : State) (v : Byte), Inv s → s.phase ∈ legalPhases .din s.route →
    (s.dir = .fiveToEight → 32 ≤ v.toNat →
      exec (.din v) s = .next { s with err := .range, phase := .err, fifo := [] }) ∧
    (v.toNat < 2 ^ fromBits s.dir →
      s.params.outDepth < s.fifo.length + (s.cnt.toNat + fromBits s.dir) / toBits s.dir →
      exec (.din v) s = .next { s with err := .overflow, phase := .err, fifo := [] })

/-- R66, R69: FLUSH, where legal, when the buffered bits can be represented and the items fit: it emits the low `cnt`
bits of `acc` at the top of one chunk (PAD = 1 and `cnt > 0`) or nothing, clears `acc` and `cnt`, and on the RAW route
enters DONE. -/
def Obligations.FlushEndsTheInput : Prop :=
  ∀ s : State, Inv s → s.phase ∈ legalPhases .flush s.route →
    (s.pad = true ∨ s.cnt.toNat < fromBits s.dir ∧ s.acc.toNat % 2 ^ s.cnt.toNat = 0) →
    let last : List Nat :=
      if s.pad = true ∧ 0 < s.cnt.toNat then
        [s.acc.toNat % 2 ^ s.cnt.toNat * 2 ^ (toBits s.dir - s.cnt.toNat)] else []
    s.fifo.length + last.length ≤ s.params.outDepth →
    exec .flush s = .next { s with
      acc := 0#12, cnt := 0#4, chk := chkAfter s.route s.chk last,
      fifo := s.fifo ++ last.map (itemOf s.route), phase := if s.route = .raw then .done else s.phase }

/-- R66, R69: FLUSH raises REJECT when PAD = 0 and `cnt >= from` or the buffered bits are not all zero, whatever room
there is; with PAD = 1 and bits buffered it raises OVERFLOW on a full FIFO. -/
def Obligations.FlushTraps : Prop :=
  ∀ s : State, Inv s → s.phase ∈ legalPhases .flush s.route →
    (s.pad = false → fromBits s.dir ≤ s.cnt.toNat ∨ s.acc.toNat % 2 ^ s.cnt.toNat ≠ 0 →
      exec .flush s = .next { s with err := .reject, phase := .err, fifo := [] }) ∧
    (s.pad = true → 0 < s.cnt.toNat → s.fifo.length = s.params.outDepth →
      exec .flush s = .next { s with err := .overflow, phase := .err, fifo := [] })

/-- R72: FLUSH with nothing buffered emits nothing and raises nothing, for every configuration. -/
def Obligations.FlushOfNoInputIsEmpty : Prop :=
  ∀ s : State, Inv s → s.phase ∈ legalPhases .flush s.route → s.cnt = 0#4 →
    exec .flush s = .next { s with acc := 0#12, phase := if s.route = .raw then .done else s.phase }

/-- R73: chunks per DIN and the new count, by the count before; one chunk per FLUSH when PAD = 1 and bits are buffered,
else none; `k` bytes in 8-to-5 with padding give ceil(8k / 5) symbols, 29 bytes 47. -/
def Obligations.ChunkCountsPerCommand : Prop :=
  (∀ (s t : State) (v : Byte), Inv s → exec (.din v) s = .next t → t.phase ≠ .err →
    (s.dir = .eightToFive →
      (s.cnt.toNat, t.fifo.length - s.fifo.length, t.cnt.toNat) ∈
        [(0, 1, 3), (1, 1, 4), (2, 2, 0), (3, 2, 1), (4, 2, 2)]) ∧
    (s.dir = .fiveToEight →
      (s.cnt.toNat, t.fifo.length - s.fifo.length, t.cnt.toNat) ∈
        [(0, 0, 5), (1, 0, 6), (2, 0, 7), (3, 1, 0), (4, 1, 1), (5, 1, 2), (6, 1, 3), (7, 1, 4)])) ∧
  (∀ s t : State, Inv s → exec .flush s = .next t → t.phase ≠ .err →
    t.fifo.length = s.fifo.length + (if s.pad = true ∧ 0 < s.cnt.toNat then 1 else 0)) ∧
  ∀ bs : List Nat, ∃ d, convert 8 5 true bs = some d ∧ d.length = (8 * bs.length + 4) / 5 ∧
    (bs.length = 29 → d.length = 47)

/-- R70: with nothing buffered, DIN of any values that fit `from`, then FLUSH, pushes exactly the items of the source's
`convert` over the whole sequence (and on the ENC route feeds it to the checksum), or raises REJECT where `convert` has
no result; given room for the chunks. -/
def Obligations.DinsThenFlushIsConvert : Prop :=
  ∀ (s : State) (vs : List Byte), Inv s → s.phase ∈ legalPhases .din s.route → s.cnt = 0#4 →
    (∀ v ∈ vs, v.toNat < 2 ^ fromBits s.dir) →
    s.fifo.length + (vs.length * fromBits s.dir + toBits s.dir - 1) / toBits s.dir ≤ s.params.outDepth →
    ∃ t, execAll (vs.map .din ++ [.flush]) s = .next t ∧
      match convert (fromBits s.dir) (toBits s.dir) s.pad (vs.map BitVec.toNat) with
      | some cs => t = { s with
          acc := 0#12, cnt := 0#4, chk := chkAfter s.route s.chk cs,
          fifo := s.fifo ++ cs.map (itemOf s.route), phase := if s.route = .raw then .done else s.phase }
      | none => t.phase = .err ∧ t.err = .reject ∧ t.fifo = []

/-- R71: a RAW 8-to-5 padded session over bytes `B`, then a RAW 5-to-8 unpadded session over its output, gives back
`B` with no error. -/
def Obligations.RoundTripRecoversTheBytes : Prop :=
  ∀ (s : State) (bs : List Byte), Inv s → (8 * bs.length + 4) / 5 ≤ s.params.outDepth →
    ∃ t u, execAll ([.clr, .cfg 0b101#3] ++ bs.map .din ++ [.flush]) s = .next t ∧ ResultValid t ∧
      execAll ([.clr, .cfg 0b110#3] ++ t.fifo.map .din ++ [.flush]) t = .next u ∧ ResultValid u ∧ u.fifo = bs

/-! ### Mapper (42_mapper.md) -/

/-- R83, R84: `Map` is the alphabet of the rule, its 32 codes are distinct, all are lower-case letters or digits, and
`1`, `b`, `i` and `o` do not occur. -/
def Obligations.MapIsTheAlphabet : Prop :=
  (∀ v : Symbol, (mapSymbol v).toNat =
    (['q', 'p', 'z', 'r', 'y', '9', 'x', '8', 'g', 'f', '2', 't', 'v', 'd', 'w', '0',
      's', '3', 'j', 'n', '5', '4', 'k', 'h', 'c', 'e', '6', 'm', 'u', 'a', '7', 'l'].getD v.toNat ' ').toNat) ∧
  (∀ u v : Symbol, mapSymbol u = mapSymbol v → u = v) ∧
  ∀ v : Symbol, mapSymbol v ∉ [0x31#8, 0x62#8, 0x69#8, 0x6f#8] ∧
    (0x61 ≤ (mapSymbol v).toNat ∧ (mapSymbol v).toNat ≤ 0x7a ∨
      0x30 ≤ (mapSymbol v).toNat ∧ (mapSymbol v).toNat ≤ 0x39)

/-- R87: SYM, in DATA of the ENC route with room for one item, is one polymod step and one character; the converter is
untouched, also while it holds bits; on a full FIFO it raises OVERFLOW. -/
def Obligations.SymDeliversOneSymbol : Prop :=
  ∀ (s : State) (x : Symbol), s.route = .enc → s.phase = .data →
    (s.fifo.length < s.params.outDepth →
      exec (.sym x) s = .next { s with chk := polymodStep s.chk x, fifo := s.fifo ++ [mapSymbol x] }) ∧
    (s.params.outDepth ≤ s.fifo.length →
      exec (.sym x) s = .next { s with err := .overflow, phase := .err, fifo := [] })

/-- R81, R86, R89, for some payload `d` (which the FIFO fixes; the statement does not tie it to the operands delivered):
a session of any commands but CLR that starts on a new, empty session and ends in DONE on the ENC
route, with nothing read meanwhile: the FIFO is the prefix held, `1`, the characters of some payload `d` and of its
checksum, and `chk` is the source's checksum value over that prefix and `d`. -/
def Obligations.EncSessionYieldsTheSourceAddress : Prop :=
  ∀ (s t : State) (is : List Instr), Inv s → s.phase = .idle → .clr ∉ is → execAll is s = .next t →
    t.phase = .done → t.route = .enc →
    t.err = .noError ∧ t.hrpChars ≠ [] ∧
    ∃ d : List Symbol, t.fifo = addressItems t.hrpChars d ∧ t.chk = checksum t.hrpChars d

/-- R110: from a new session with the reset configuration, HRP per character, SEP, DIN per byte and FIN succeed, given
room, and leave the source's encoder applied to the prefix and `convert(B, 8, 5, pad = true)`. -/
def Obligations.EncodeSequenceSucceeds : Prop :=
  ∀ (s : State) (h : List HrpChar) (bs : List Byte), Inv s → s.phase = .idle → s.cfg = 0b001#3 →
    1 ≤ h.length → h.length ≤ s.params.hrpMax →
    h.length + 1 + (8 * bs.length + 4) / 5 + 6 ≤ s.params.outDepth →
    ∃ t d, execAll (h.map (fun c => .hrp (c.setWidth 8)) ++ [.sep] ++ bs.map .din ++ [.fin]) s = .next t ∧
      convert 8 5 true (bs.map BitVec.toNat) = some d ∧ ResultValid t ∧ t.hrpChars = h ∧
      t.fifo = addressItems h (d.map (BitVec.ofNat 5)) ∧ t.chk = checksum h (d.map (BitVec.ofNat 5))

/-! ### Whole-machine rules -/

/-- R38: the invariant holds after reset, for every legal choice of the parameters. -/
def Obligations.InvHoldsAtReset : Prop :=
  ∀ p : Params, p.Wf → Inv (State.resetWith p)

/-- R38: every step keeps the invariant, from every state that has it. -/
def Obligations.StepKeepsInv : Prop :=
  ∀ s t : State, Inv s → step s = .next t → Inv t

/-- R38: between any two host accesses the invariant holds: after reset, for any accesses the host makes. -/
def Obligations.InvHoldsBetweenAnyTwoAccesses : Prop :=
  ∀ (p : Params) (script : List Access) (n : Nat) (t : State), p.Wf →
    Host.Core.run Sys2Proof.core n { State.resetWith p with pending := script } = .next t → Inv t

/-- R14: the entries of `hrp_buf` at index `hrp_len` and above are never seen: two states that differ only there answer
the same registers and stay so under every step.  (So the model's choice of their reset value, log entry 3, shows
nowhere.) -/
def Obligations.HiddenCharactersNeverShow : Prop :=
  ∀ s t s' : State, SameVisible s t → step s = .next s' →
    (∀ r : Reg, regValue r t = regValue r s) ∧ ∃ t', step t = .next t' ∧ SameVisible s' t'

/-- R16 to R23: the frame of the commands: no command changes the parameters or the host's side; only CFG writes `cfg`;
only HRP and CLR the prefix; only DIN, FLUSH, FIN and CLR `acc` and `cnt`; only SEP, DIN, SYM, FLUSH, FIN and CLR
`chk`. -/
def Obligations.CommandsWriteOnlyTheirFields : Prop :=
  ∀ (s t : State) (i : Instr), exec i s = .next t →
    t.params = s.params ∧ t.pending = s.pending ∧ t.readBack = s.readBack ∧
    (i.op ≠ .cfg → t.cfg = s.cfg) ∧
    (i.op ≠ .hrp → t.hrpBuf = s.hrpBuf) ∧
    (i.op ∉ [Op.hrp, Op.clr] → t.hrpLen = s.hrpLen) ∧
    (i.op ∉ [Op.din, Op.flush, Op.fin, Op.clr] → t.acc = s.acc ∧ t.cnt = s.cnt) ∧
    (i.op ∉ [Op.sep, Op.din, Op.sym, Op.flush, Op.fin, Op.clr] → t.chk = s.chk) ∧
    (i.op ∉ [Op.cfg, Op.hrp, Op.sep, Op.din, Op.sym, Op.flush, Op.fin, Op.clr] → t.phase = s.phase)

/-- R50: what a command pushes goes behind what the FIFO holds, and a read of OUT removes from the front. -/
def Obligations.FifoKeepsPushOrder : Prop :=
  (∀ (s t : State) (i : Instr), exec i s = .next t → i ≠ .clr → t.phase ≠ .err →
    ∃ items, t.fifo = s.fifo ++ items) ∧
  ∀ s : State, (busRead .out s).fifo = s.fifo.drop 1

/-- R114: with room for the items the table gives a command at most, or with an empty FIFO, it raises no OVERFLOW; and
it never pushes more. -/
def Obligations.RoomForTheTableNeverOverflows : Prop :=
  ∀ (s t : State) (i : Instr), Inv s → s.phase ≠ .err → exec i s = .next t →
    (s.fifo.length + maxItems i s ≤ s.params.outDepth ∨ s.fifo = [] → t.err ≠ .overflow) ∧
    t.fifo.length ≤ s.fifo.length + maxItems i s

/-- R63, R98: a finished result is never extended: a command after which the result of a session in DONE still counts
has changed nothing. -/
def Obligations.FinishedResultIsStable : Prop :=
  ∀ (s t : State) (i : Instr), Inv s → ResultValid s → exec i s = .next t → ResultValid t → t = s

/-! ### Assembler (30_encoding.md R60) -/

/-- R60: every command an assembler line spells is well formed and its CMD write runs it; a number outside its range and
`cfg enc, 5to8` spell no command. -/
def Obligations.AssembledLinesRunTheirCommand : Prop :=
  (∀ (l : Line) (i : Instr) (s : State), lineCommand l = some i →
    i.WellFormed ∧ ∃ a, assemble s.params l = some a ∧ hostAccess a s = exec i s) ∧
  (∀ v, 256 ≤ v → lineCommand (.hrp v) = none ∧ lineCommand (.din v) = none) ∧
  (∀ n, 32 ≤ n → lineCommand (.sym n) = none) ∧
  ∀ pad, lineCommand (.cfg .enc .fiveToEight pad) = none
end

