-- ==== Sys2Proof/Laws/Decode.lean ====
section
/-! SUPPORT. The decoder's and the encoder's fields as numbers, and the operand formats. -/

namespace Sys2Proof.Machine

theorem wellFormed_iff (i : Instr) : i.wellFormed = true ↔ i.WellFormed := by
  cases i <;> simp [Instr.wellFormed, Instr.WellFormed]

theorem opField_toNat (w : Word) : (opField w).toNat = opNumber w := by
  simp [opNumber, opField, BitVec.extractLsb', Nat.shiftRight_eq_div_pow]

theorem reservedHigh_eq_zero (w : Word) : reservedHigh w = 0#16 ↔ w.toNat / 65536 = 0 := by
  have := w.isLt
  simp [reservedHigh, BitVec.extractLsb', Nat.shiftRight_eq_div_pow, BitVec.toNat_eq]
  omega

theorem reservedMid_eq_zero (w : Word) : reservedMid w = 0#4 ↔ w.toNat / 256 % 16 = 0 := by
  simp [reservedMid, BitVec.extractLsb', Nat.shiftRight_eq_div_pow, BitVec.toNat_eq]

theorem imm8_toNat (w : Word) : (imm8 w).toNat = w.toNat % 256 := by
  simp [imm8, BitVec.extractLsb']

theorem encode_toNat (i : Instr) : (encode i).toNat = 4096 * (opBits i.op).toNat + (immBits i).toNat := by
  have := (immBits i).isLt
  have := (opBits i.op).isLt
  unfold encode
  simp only [BitVec.toNat_append]
  rw [← Nat.shiftLeft_add_eq_or_of_lt, ← Nat.shiftLeft_add_eq_or_of_lt, ← Nat.shiftLeft_add_eq_or_of_lt]
  · simp [Nat.shiftLeft_eq]; omega
  all_goals simp; try omega

theorem opOf_opBits (op : Op) : opOf (opBits op) = some op := by cases op <;> rfl

theorem opBits_of_opOf {f : BitVec 4} {op : Op} (h : opOf f = some op) : opBits op = f := by
  revert f op; decide

/-- The reserved opcodes are 0x9 to 0xF (R55). -/
theorem opOf_eq_none (f : BitVec 4) : opOf f = none ↔ 9 ≤ f.toNat := by
  revert f; decide

/-- What an operand byte spells under an opcode: the well-formed command with that opcode and that byte (R53). -/
theorem withOperand_iff (op : Op) (b : Byte) (i : Instr) :
    withOperand op b = some i ↔ i.WellFormed ∧ i.op = op ∧ immBits i = b := by
  cases op <;> cases i <;> simp [withOperand, formatZ, formatC, formatS, Instr.op, immBits, Instr.WellFormed]
  all_goals try (constructor <;> (intro h; simp_all))
  · rename_i c
    constructor
    · rintro ⟨⟨h1, h2⟩, rfl⟩
      refine ⟨h2, ?_⟩
      revert b; decide
    · rintro ⟨h1, rfl⟩
      revert c; decide
  · rename_i x
    constructor
    · rintro ⟨h1, rfl⟩
      revert b; decide
    · rintro rfl
      revert x; decide

end Sys2Proof.Machine
end

