-- ==== Sys2Proof/Laws/State.lean ====
section
/-! SUPPORT. One lemma per field per named update of the state, true by rfl, so that no proof unfolds an update. -/

namespace Sys2Proof.Machine

/-! ### `raise` -/

@[simp] theorem raise_params (e : ErrCode) (s : State) : (raise e s).params = s.params := rfl
@[simp] theorem raise_cfg (e : ErrCode) (s : State) : (raise e s).cfg = s.cfg := rfl
@[simp] theorem raise_phase (e : ErrCode) (s : State) : (raise e s).phase = .err := rfl
@[simp] theorem raise_err (e : ErrCode) (s : State) : (raise e s).err = e := rfl
@[simp] theorem raise_acc (e : ErrCode) (s : State) : (raise e s).acc = s.acc := rfl
@[simp] theorem raise_cnt (e : ErrCode) (s : State) : (raise e s).cnt = s.cnt := rfl
@[simp] theorem raise_chk (e : ErrCode) (s : State) : (raise e s).chk = s.chk := rfl
@[simp] theorem raise_hrpLen (e : ErrCode) (s : State) : (raise e s).hrpLen = s.hrpLen := rfl
@[simp] theorem raise_hrpBuf (e : ErrCode) (s : State) : (raise e s).hrpBuf = s.hrpBuf := rfl
@[simp] theorem raise_fifo (e : ErrCode) (s : State) : (raise e s).fifo = [] := rfl
@[simp] theorem raise_pending (e : ErrCode) (s : State) : (raise e s).pending = s.pending := rfl
@[simp] theorem raise_readBack (e : ErrCode) (s : State) : (raise e s).readBack = s.readBack := rfl

/-! ### `doClr` -/

@[simp] theorem doClr_params (s : State) : (doClr s).params = s.params := rfl
@[simp] theorem doClr_cfg (s : State) : (doClr s).cfg = s.cfg := rfl
@[simp] theorem doClr_phase (s : State) : (doClr s).phase = .idle := rfl
@[simp] theorem doClr_err (s : State) : (doClr s).err = .noError := rfl
@[simp] theorem doClr_acc (s : State) : (doClr s).acc = 0#12 := rfl
@[simp] theorem doClr_cnt (s : State) : (doClr s).cnt = 0#4 := rfl
@[simp] theorem doClr_chk (s : State) : (doClr s).chk = 1#30 := rfl
@[simp] theorem doClr_hrpLen (s : State) : (doClr s).hrpLen = 0#8 := rfl
@[simp] theorem doClr_hrpBuf (s : State) : (doClr s).hrpBuf = s.hrpBuf := rfl
@[simp] theorem doClr_fifo (s : State) : (doClr s).fifo = [] := rfl
@[simp] theorem doClr_pending (s : State) : (doClr s).pending = s.pending := rfl
@[simp] theorem doClr_readBack (s : State) : (doClr s).readBack = s.readBack := rfl

/-! ### `doReset` -/

@[simp] theorem doReset_params (s : State) : (doReset s).params = s.params := rfl
@[simp] theorem doReset_cfg (s : State) : (doReset s).cfg = 0b001#3 := rfl
@[simp] theorem doReset_phase (s : State) : (doReset s).phase = .idle := rfl
@[simp] theorem doReset_err (s : State) : (doReset s).err = .noError := rfl
@[simp] theorem doReset_acc (s : State) : (doReset s).acc = 0#12 := rfl
@[simp] theorem doReset_cnt (s : State) : (doReset s).cnt = 0#4 := rfl
@[simp] theorem doReset_chk (s : State) : (doReset s).chk = 1#30 := rfl
@[simp] theorem doReset_hrpLen (s : State) : (doReset s).hrpLen = 0#8 := rfl
@[simp] theorem doReset_hrpBuf (s : State) : (doReset s).hrpBuf = s.hrpBuf := rfl
@[simp] theorem doReset_fifo (s : State) : (doReset s).fifo = [] := rfl
@[simp] theorem doReset_pending (s : State) : (doReset s).pending = s.pending := rfl
@[simp] theorem doReset_readBack (s : State) : (doReset s).readBack = s.readBack := rfl

/-! ### `popOut` -/

@[simp] theorem popOut_params (s : State) : (popOut s).params = s.params := rfl
@[simp] theorem popOut_cfg (s : State) : (popOut s).cfg = s.cfg := rfl
@[simp] theorem popOut_phase (s : State) : (popOut s).phase = s.phase := rfl
@[simp] theorem popOut_err (s : State) : (popOut s).err = s.err := rfl
@[simp] theorem popOut_acc (s : State) : (popOut s).acc = s.acc := rfl
@[simp] theorem popOut_cnt (s : State) : (popOut s).cnt = s.cnt := rfl
@[simp] theorem popOut_chk (s : State) : (popOut s).chk = s.chk := rfl
@[simp] theorem popOut_hrpLen (s : State) : (popOut s).hrpLen = s.hrpLen := rfl
@[simp] theorem popOut_hrpBuf (s : State) : (popOut s).hrpBuf = s.hrpBuf := rfl
@[simp] theorem popOut_fifo (s : State) : (popOut s).fifo = s.fifo.tail := rfl
@[simp] theorem popOut_pending (s : State) : (popOut s).pending = s.pending := rfl
@[simp] theorem popOut_readBack (s : State) : (popOut s).readBack = s.readBack := rfl

/-! ### `deliver` -/

@[simp] theorem deliver_params (w : Word) (s : State) : (deliver w s).params = s.params := rfl
@[simp] theorem deliver_cfg (w : Word) (s : State) : (deliver w s).cfg = s.cfg := rfl
@[simp] theorem deliver_phase (w : Word) (s : State) : (deliver w s).phase = s.phase := rfl
@[simp] theorem deliver_err (w : Word) (s : State) : (deliver w s).err = s.err := rfl
@[simp] theorem deliver_acc (w : Word) (s : State) : (deliver w s).acc = s.acc := rfl
@[simp] theorem deliver_cnt (w : Word) (s : State) : (deliver w s).cnt = s.cnt := rfl
@[simp] theorem deliver_chk (w : Word) (s : State) : (deliver w s).chk = s.chk := rfl
@[simp] theorem deliver_hrpLen (w : Word) (s : State) : (deliver w s).hrpLen = s.hrpLen := rfl
@[simp] theorem deliver_hrpBuf (w : Word) (s : State) : (deliver w s).hrpBuf = s.hrpBuf := rfl
@[simp] theorem deliver_fifo (w : Word) (s : State) : (deliver w s).fifo = s.fifo := rfl
@[simp] theorem deliver_pending (w : Word) (s : State) : (deliver w s).pending = cmdWrite s.params w :: s.pending := rfl
@[simp] theorem deliver_readBack (w : Word) (s : State) : (deliver w s).readBack = s.readBack := rfl

/-! ### A bus read -/

@[simp] theorem busRead_fifo (r : Reg) (s : State) :
    (busRead r s).fifo = if r = .out then s.fifo.tail else s.fifo := by
  cases r <;> rfl
@[simp] theorem busRead_readBack (r : Reg) (s : State) :
    (busRead r s).readBack = s.readBack ++ [regValue r s] := rfl
@[simp] theorem busRead_params (r : Reg) (s : State) : (busRead r s).params = s.params := by cases r <;> rfl
@[simp] theorem busRead_cfg (r : Reg) (s : State) : (busRead r s).cfg = s.cfg := by cases r <;> rfl
@[simp] theorem busRead_phase (r : Reg) (s : State) : (busRead r s).phase = s.phase := by cases r <;> rfl
@[simp] theorem busRead_err (r : Reg) (s : State) : (busRead r s).err = s.err := by cases r <;> rfl
@[simp] theorem busRead_acc (r : Reg) (s : State) : (busRead r s).acc = s.acc := by cases r <;> rfl
@[simp] theorem busRead_cnt (r : Reg) (s : State) : (busRead r s).cnt = s.cnt := by cases r <;> rfl
@[simp] theorem busRead_chk (r : Reg) (s : State) : (busRead r s).chk = s.chk := by cases r <;> rfl
@[simp] theorem busRead_hrpLen (r : Reg) (s : State) : (busRead r s).hrpLen = s.hrpLen := by cases r <;> rfl
@[simp] theorem busRead_hrpBuf (r : Reg) (s : State) : (busRead r s).hrpBuf = s.hrpBuf := by cases r <;> rfl
@[simp] theorem busRead_pending (r : Reg) (s : State) : (busRead r s).pending = s.pending := by cases r <;> rfl

/-! ### The views of `cfg` -/

@[simp] theorem raise_pad (e : ErrCode) (s : State) : (raise e s).pad = s.pad := rfl
@[simp] theorem raise_dir (e : ErrCode) (s : State) : (raise e s).dir = s.dir := rfl
@[simp] theorem raise_route (e : ErrCode) (s : State) : (raise e s).route = s.route := rfl
@[simp] theorem doClr_pad (s : State) : (doClr s).pad = s.pad := rfl
@[simp] theorem doClr_dir (s : State) : (doClr s).dir = s.dir := rfl
@[simp] theorem doClr_route (s : State) : (doClr s).route = s.route := rfl
@[simp] theorem popOut_pad (s : State) : (popOut s).pad = s.pad := rfl
@[simp] theorem popOut_dir (s : State) : (popOut s).dir = s.dir := rfl
@[simp] theorem popOut_route (s : State) : (popOut s).route = s.route := rfl
@[simp] theorem deliver_pad (w : Word) (s : State) : (deliver w s).pad = s.pad := rfl
@[simp] theorem deliver_dir (w : Word) (s : State) : (deliver w s).dir = s.dir := rfl
@[simp] theorem deliver_route (w : Word) (s : State) : (deliver w s).route = s.route := rfl

end Sys2Proof.Machine
end

