-- ==== Sys2Proof/Laws/Ops.lean ====
section
/-! SUPPORT. What each shared operation can do, said once. -/

namespace Sys2Proof.Machine

/-! ### Dispatch -/

/-- The model's `legal` is the table of R63, outside ERR. -/
theorem legal_iff (op : Op) (r : Route) (p : Phase) (h : p ≠ .err) : legal op r p = true ↔ p ∈ legalPhases op r := by
  cases op <;> cases r <;> cases p <;> simp_all [legal, legalPhases]

theorem settle_ok {s t : State} {r : Except ErrCode State} (h : r = .ok t) : settle s r = t := by subst h; rfl
theorem settle_error {s : State} {e : ErrCode} {r : Except ErrCode State} (h : r = .error e) :
    settle s r = raise e s := by subst h; rfl

theorem dispatch_err {i : Instr} {body : State → Except ErrCode State} {s : State} (h : s.phase = .err) :
    dispatch i body s = s := by simp [dispatch, h]

theorem dispatch_illegalOperand {i : Instr} {body : State → Except ErrCode State} {s : State} (h : s.phase ≠ .err)
    (hw : ¬ i.WellFormed) : dispatch i body s = raise .illegalOperand s := by
  have : i.wellFormed = false := by simpa using mt (wellFormed_iff i).1 hw
  simp [dispatch, h, this]

theorem dispatch_sequence {i : Instr} {body : State → Except ErrCode State} {s : State} (h : s.phase ≠ .err)
    (hw : i.WellFormed) (hl : s.phase ∉ legalPhases i.op s.route) : dispatch i body s = raise .sequence s := by
  have h1 : legal i.op s.route s.phase = false := by simpa using mt (legal_iff _ _ _ h).1 hl
  simp [dispatch, h, (wellFormed_iff i).2 hw, h1]

theorem legalPhases_ne_err {op : Op} {r : Route} {p : Phase} (h : p ∈ legalPhases op r) : p ≠ .err := by
  rintro rfl; cases op <;> cases r <;> simp [legalPhases] at h

theorem dispatch_run {i : Instr} {body : State → Except ErrCode State} {s : State}
    (hw : i.WellFormed) (hl : s.phase ∈ legalPhases i.op s.route) :
    dispatch i body s = settle s (body s) := by
  have h := legalPhases_ne_err hl
  simp [dispatch, h, (wellFormed_iff i).2 hw, (legal_iff _ _ _ h).2 hl]

/-- Everything dispatch can do (R62). -/
theorem dispatch_cases (i : Instr) (body : State → Except ErrCode State) (s : State) :
    (s.phase = .err ∧ dispatch i body s = s) ∨
    (s.phase ≠ .err ∧ ¬ i.WellFormed ∧ dispatch i body s = raise .illegalOperand s) ∨
    (s.phase ≠ .err ∧ i.WellFormed ∧ s.phase ∉ legalPhases i.op s.route ∧ dispatch i body s = raise .sequence s) ∨
    (s.phase ∈ legalPhases i.op s.route ∧ i.WellFormed ∧
      ((∃ t, body s = .ok t ∧ dispatch i body s = t) ∨ ∃ e, body s = .error e ∧ dispatch i body s = raise e s)) := by
  by_cases h : s.phase = .err
  · exact .inl ⟨h, dispatch_err h⟩
  by_cases hw : i.WellFormed
  · by_cases hl : s.phase ∈ legalPhases i.op s.route
    · refine .inr (.inr (.inr ⟨hl, hw, ?_⟩))
      rw [dispatch_run hw hl]
      cases hb : body s with
      | ok t => exact .inl ⟨t, rfl, rfl⟩
      | error e => exact .inr ⟨e, rfl, rfl⟩
    · exact .inr (.inr (.inl ⟨h, hw, hl, dispatch_sequence h hw hl⟩))
  · exact .inr (.inl ⟨h, hw, dispatch_illegalOperand h hw⟩)

/-! ### The output FIFO -/

theorem push_ok {items : List Byte} {s : State} (h : s.fifo.length + items.length ≤ s.params.outDepth) :
    push items s = .ok { s with fifo := s.fifo ++ items } := by
  simp [push, Nat.not_lt.2 h]

theorem push_overflow {items : List Byte} {s : State} (h : s.params.outDepth < s.fifo.length + items.length) :
    push items s = .error .overflow := by
  simp [push, h]

/-- Everything `push` can do. -/
theorem push_cases (items : List Byte) (s : State) :
    (s.fifo.length + items.length ≤ s.params.outDepth ∧ push items s = .ok { s with fifo := s.fifo ++ items }) ∨
    (s.params.outDepth < s.fifo.length + items.length ∧ push items s = .error .overflow) := by
  rcases Nat.lt_or_ge s.params.outDepth (s.fifo.length + items.length) with h | h
  · exact .inr ⟨h, push_overflow h⟩
  · exact .inl ⟨h, push_ok h⟩

/-! ### The converter -/

theorem and_maxv (x wo : Nat) : x &&& maxv wo = x % 2 ^ wo := Nat.and_two_pow_sub_one_eq_mod x wo

/-- The loop of `ConvPush` in closed form: `n / wo` chunks from the top, `n % wo` bits left (R65). -/
theorem takeChunks_eq (a wo : Nat) (hwo : 0 < wo) :
    ∀ fuel n, n ≤ fuel → takeChunks a wo fuel n = (n % wo, wholeChunks a n wo) := by
  intro fuel
  induction fuel with
  | zero => intro n hn; obtain rfl : n = 0 := by omega
            simp [takeChunks, wholeChunks]
  | succ fuel ih =>
    intro n hn
    unfold takeChunks
    split
    · rename_i h
      have h1 : n / wo = (n - wo) / wo + 1 := by
        rw [← Nat.add_div_right _ hwo, Nat.sub_add_cancel h]
      rw [ih (n - wo) (by omega)]
      simp only [wholeChunks, h1, List.range_succ_eq_map, List.map_cons, List.map_map, Prod.mk.injEq]
      refine ⟨(Nat.mod_eq_sub_mod h).symm, ?_⟩
      simp only [and_maxv, Nat.shiftRight_eq_div_pow, Nat.zero_add, Nat.one_mul, List.cons.injEq, true_and]
      apply List.map_congr_left
      intro k _
      simp only [Function.comp]
      rw [show n - wo - (k + 1) * wo = n - (k + 1 + 1) * wo by
        rw [Nat.add_mul (k + 1) 1 wo, Nat.one_mul]; omega]
    · rename_i h
      have h : n < wo := by omega
      simp [wholeChunks, Nat.mod_eq_of_lt h, Nat.div_eq_of_lt h]

@[simp] theorem wholeChunks_length (a n wo : Nat) : (wholeChunks a n wo).length = n / wo := by simp [wholeChunks]

/-- `ConvFlush`'s chunk: the low `cnt` bits of the accumulator at the top of a chunk (R66). -/
theorem topBits_eq {acc cnt wo : Nat} (h : cnt ≤ wo) : topBits acc cnt wo = acc % 2 ^ cnt * 2 ^ (wo - cnt) := by
  rw [topBits, and_maxv, Nat.shiftLeft_eq]
  conv_lhs => rw [← Nat.sub_add_cancel h, Nat.pow_add, Nat.mul_comm (2 ^ (wo - cnt)) (2 ^ cnt)]
  rw [show wo - cnt + cnt - cnt = wo - cnt by omega, Nat.mul_mod_mul_right]

/-- `Emit` in closed form (R67). -/
theorem emit_eq (r : Route) (c : Chk) (cs : List Nat) : emit r c cs = (chkAfter r c cs, cs.map (itemOf r)) := by
  cases r <;> induction cs generalizing c <;> simp_all [emit, chkAfter, itemOf, polymodFrom]

/-! ### The polymod -/

theorem polymodFrom_append (c : Chk) (xs ys : List Symbol) :
    polymodFrom c (xs ++ ys) = polymodFrom (polymodFrom c xs) ys := by simp [polymodFrom]

/-- The fields of a checksum value, as bits and as numbers (R40, R79). -/
theorem sixSymbols_eq (c : Chk) : sixSymbols c = checksumSymbols c := by
  simp only [sixSymbols, checksumSymbols, List.range, List.range.loop, List.map]
  simp [BitVec.toNat_eq, Nat.shiftRight_eq_div_pow]

end Sys2Proof.Machine
end

