-- ==== Sys2Proof/Laws/Rules.lean ====
section
/-! SUPPORT. What each command's own rule can do, said once: its errors, and its effect in closed form. -/

namespace Sys2Proof.Machine

/-! ### `exec` and dispatch -/

/-- What a command's own rule is (R62): CLR alone does not go through dispatch. -/
def ruleOf (i : Instr) (s : State) : Except ErrCode State :=
  match i with
  | .nop => .ok s
  | .clr => .ok (doClr s)
  | .cfg c => .ok { s with cfg := c }
  | .hrp v => hrpRule v s
  | .sep => sepRule s
  | .din v => dinRule v s
  | .sym x => symRule x s
  | .flush => flushRule s
  | .fin => finRule s

theorem exec_clr (s : State) : exec .clr s = .next (doClr s) := rfl

theorem exec_of_ne_clr {i : Instr} (h : i ≠ .clr) (s : State) : exec i s = .next (dispatch i (ruleOf i) s) := by
  cases i <;> first | rfl | exact absurd rfl h

/-- Every command ends in a next state. -/
theorem exec_next (i : Instr) (s : State) : ∃ t, exec i s = .next t := by
  by_cases h : i = .clr
  · subst h; exact ⟨_, rfl⟩
  · exact ⟨_, exec_of_ne_clr h s⟩

/-- A legal command runs its own rule. -/
theorem exec_run {i : Instr} {s : State} (hc : i ≠ .clr) (hw : i.WellFormed)
    (hl : s.phase ∈ legalPhases i.op s.route) : exec i s = .next (settle s (ruleOf i s)) := by
  rw [exec_of_ne_clr hc, dispatch_run hw hl]

theorem exec_ok {i : Instr} {s t : State} (hc : i ≠ .clr) (hw : i.WellFormed)
    (hl : s.phase ∈ legalPhases i.op s.route) (h : ruleOf i s = .ok t) : exec i s = .next t := by
  rw [exec_run hc hw hl, settle_ok h]

theorem exec_error {i : Instr} {s : State} {e : ErrCode} (hc : i ≠ .clr) (hw : i.WellFormed)
    (hl : s.phase ∈ legalPhases i.op s.route) (h : ruleOf i s = .error e) : exec i s = .next (raise e s) := by
  rw [exec_run hc hw hl, settle_error h]

/-! ### Rules that push: their effect before the push, and their items -/

/-- A successful push, inverted. -/
theorem push_inv {items : List Byte} {s t : State} (h : push items s = .ok t) :
    t = { s with fifo := s.fifo ++ items } ∧ s.fifo.length + items.length ≤ s.params.outDepth := by
  rcases push_cases items s with ⟨h1, h2⟩ | ⟨h1, h2⟩ <;> rw [h2] at h <;> simp at h
  exact ⟨h.symm, h1⟩

/-- A failed push, inverted. -/
theorem push_inv_error {items : List Byte} {s : State} {e : ErrCode} (h : push items s = .error e) :
    e = .overflow ∧ s.params.outDepth < s.fifo.length + items.length := by
  rcases push_cases items s with ⟨h1, h2⟩ | ⟨h1, h2⟩ <;> rw [h2] at h <;> simp at h
  exact ⟨h.symm, h1⟩

theorem rawPhase_eq (r : Route) (p q : Phase) : rawPhase r p q = if r = .raw then p else q := by cases r <;> rfl

theorem dinRule_range {v : Byte} {s : State} (h : dinOutOfRange s.dir v = true) : dinRule v s = .error .range := by
  simp [dinRule, h]

theorem dinRule_inRange {v : Byte} {s : State} (h : dinOutOfRange s.dir v = false) :
    dinRule v s =
      let r := convPush s.acc.toNat s.cnt.toNat v.toNat (fromBits s.dir) (toBits s.dir)
      push (r.chunks.map (itemOf s.route))
        { s with acc := BitVec.ofNat 12 r.acc, cnt := BitVec.ofNat 4 r.cnt, chk := chkAfter s.route s.chk r.chunks,
                 phase := rawPhase s.route .conv s.phase } := by
  simp only [dinRule, h, emit_eq]

/-- The accumulator after a shift-in. -/
theorem convPush_acc {acc cnt v wi wo : Nat} (hv : v < 2 ^ wi) :
    (convPush acc cnt v wi wo).acc = (acc * 2 ^ wi + v) % 4096 := by
  have h1 : acc <<< wi ||| v = acc * 2 ^ wi + v := by
    rw [← Nat.shiftLeft_add_eq_or_of_lt hv, Nat.shiftLeft_eq]
  simp only [convPush, h1]
  exact Nat.and_two_pow_sub_one_eq_mod _ 12

/-- Masking a number to 12 bits changes no chunk below position 12 (R70). -/
theorem wholeChunks_mod {a n wo : Nat} (hn : n ≤ 12) : wholeChunks (a % 4096) n wo = wholeChunks a n wo := by
  simp only [wholeChunks]
  apply List.map_congr_left
  intro k hk
  simp only [List.mem_range] at hk
  have h1 : (k + 1) * wo ≤ n := le_trans (Nat.mul_le_mul_right _ hk) (Nat.div_mul_le_self n wo)
  generalize hm : (k + 1) * wo = m at *
  have h2 : wo ≤ m := by rw [← hm]; exact Nat.le_mul_of_pos_left _ (Nat.succ_pos k)
  have h3 : 4096 = 2 ^ (n - m) * 2 ^ (12 - (n - m)) := by
    rw [← Nat.pow_add, show n - m + (12 - (n - m)) = 12 by omega]
  rw [h3, Nat.mod_mul_right_div_self, Nat.mod_mod_of_dvd]
  exact pow_dvd_pow 2 (by omega)

/-- The chunks and the count after a shift-in (R65). -/
theorem convPush_chunks {acc cnt v wi wo : Nat} (hv : v < 2 ^ wi) (hwo : 0 < wo) (hn : cnt + wi ≤ 12) :
    (convPush acc cnt v wi wo).chunks = wholeChunks (acc * 2 ^ wi + v) (cnt + wi) wo ∧
    (convPush acc cnt v wi wo).cnt = (cnt + wi) % wo := by
  have ha := convPush_acc (acc := acc) (cnt := cnt) (wo := wo) hv
  simp only [convPush] at ha ⊢
  rw [takeChunks_eq _ _ hwo _ _ (le_refl _), ha]
  exact ⟨wholeChunks_mod hn, rfl⟩

theorem toBits_pos (d : Dir) : 0 < toBits d := by cases d <;> decide

/-- DIN's own rule in closed form (R65, R67, R68). -/
theorem dinRule_eq {v : Byte} {s : State} (h : v.toNat < 2 ^ fromBits s.dir)
    (hc : s.cnt.toNat < toBits s.dir) :
    dinRule v s =
      let n := s.cnt.toNat + fromBits s.dir
      let a := s.acc.toNat * 2 ^ fromBits s.dir + v.toNat
      let cs := wholeChunks a n (toBits s.dir)
      push (cs.map (itemOf s.route))
        { s with acc := BitVec.ofNat 12 (a % 4096), cnt := BitVec.ofNat 4 (n % toBits s.dir),
                 chk := chkAfter s.route s.chk cs, phase := rawPhase s.route .conv s.phase } := by
  have hr : dinOutOfRange s.dir v = false := by
    cases hd : s.dir
    · rfl
    · rw [hd] at h; simpa [dinOutOfRange, fromBits] using h
  have hn : s.cnt.toNat + fromBits s.dir ≤ 12 := by
    cases hd : s.dir <;> simp [hd, fromBits, toBits] at * <;> omega
  obtain ⟨h1, h2⟩ := convPush_chunks (acc := s.acc.toNat) h (toBits_pos s.dir) hn
  simp only [dinRule_inRange hr, h1, h2, convPush_acc h]

/-- FLUSH's and FIN's conversion in closed form (R66): the padded last chunk, or none. -/
theorem convFlush_eq {s : State} (hc : s.cnt.toNat < toBits s.dir) :
    convFlush s.acc.toNat s.cnt.toNat s.pad (fromBits s.dir) (toBits s.dir) =
      if s.pad = true ∨ s.cnt.toNat < fromBits s.dir ∧ s.acc.toNat % 2 ^ s.cnt.toNat = 0 then
        some (if s.pad = true ∧ 0 < s.cnt.toNat then
          [s.acc.toNat % 2 ^ s.cnt.toNat * 2 ^ (toBits s.dir - s.cnt.toNat)] else [])
      else none := by
  simp only [convFlush, topBits_eq (le_of_lt hc)]
  have : 2 ^ (toBits s.dir - s.cnt.toNat) ≠ 0 := by positivity
  cases s.pad
  · by_cases h1 : fromBits s.dir ≤ s.cnt.toNat <;>
      by_cases h2 : s.acc.toNat % 2 ^ s.cnt.toNat = 0 <;> simp_all
  · by_cases h : 0 < s.cnt.toNat <;> simp [h]

theorem flushRule_reject {s : State}
    (h : convFlush s.acc.toNat s.cnt.toNat s.pad (fromBits s.dir) (toBits s.dir) = none) :
    flushRule s = .error .reject := by simp only [flushRule, h]

theorem flushRule_some {s : State} {cs : List Nat}
    (h : convFlush s.acc.toNat s.cnt.toNat s.pad (fromBits s.dir) (toBits s.dir) = some cs) :
    flushRule s = push (cs.map (itemOf s.route))
      { s with acc := 0#12, cnt := 0#4, chk := chkAfter s.route s.chk cs,
               phase := rawPhase s.route .done s.phase } := by
  simp only [flushRule, h, emit_eq]

theorem finRule_reject {s : State}
    (h : convFlush s.acc.toNat s.cnt.toNat s.pad (fromBits s.dir) (toBits s.dir) = none) :
    finRule s = .error .reject := by simp only [finRule, h]

theorem finRule_some {s : State} {cs : List Nat}
    (h : convFlush s.acc.toNat s.cnt.toNat s.pad (fromBits s.dir) (toBits s.dir) = some cs) :
    finRule s =
      let c := polymodFrom s.chk (cs.map (BitVec.ofNat 5) ++ List.replicate 6 0#5) ^^^ 1#30
      push ((cs.map (BitVec.ofNat 5) ++ checksumSymbols c).map mapSymbol)
        { s with acc := 0#12, cnt := 0#4, chk := c, phase := .done } := by
  simp only [finRule, h, emit_eq, sixSymbols_eq, finalise, chkAfter, polymodFrom_append, List.map_append,
    List.map_map]
  rfl

/-! ### Rules, inverted: what a rule that succeeds has done, and which errors it can end in -/

theorem hrpRule_ok {v : Byte} {s t : State} (h : hrpRule v s = .ok t) :
    v.toNat < 0x80 ∧ s.hrpLen.toNat ≠ s.params.hrpMax ∧
    t = { s with hrpBuf := s.hrpBuf.set s.hrpLen.toNat (v.setWidth 7), hrpLen := s.hrpLen + 1#8, phase := .hrp } := by
  unfold hrpRule at h
  split_ifs at h with h1 h2
  simp only [hrpCharIllegal, decide_eq_true_eq, not_le] at h1
  exact ⟨h1, h2, by simpa using h.symm⟩

theorem sepRule_ok {s t : State} (h : sepRule s = .ok t) :
    s.fifo.length + (s.hrpChars.length + 1) ≤ s.params.outDepth ∧
    t = { s with
      chk := polymodFrom s.chk (hrpExpand s.hrpChars), phase := .data,
      fifo := s.fifo ++ (s.hrpChars.map (fun c => c.setWidth 8) ++ [separator]) } := by
  obtain ⟨rfl, hroom⟩ := push_inv h
  exact ⟨by simpa using hroom, rfl⟩

theorem dinRule_ok {v : Byte} {s t : State} (h : dinRule v s = .ok t) :
    let r := convPush s.acc.toNat s.cnt.toNat v.toNat (fromBits s.dir) (toBits s.dir)
    v.toNat < 2 ^ fromBits s.dir ∧ s.fifo.length + r.chunks.length ≤ s.params.outDepth ∧
    t = { s with
      acc := BitVec.ofNat 12 r.acc, cnt := BitVec.ofNat 4 r.cnt, chk := chkAfter s.route s.chk r.chunks,
      phase := rawPhase s.route .conv s.phase, fifo := s.fifo ++ r.chunks.map (itemOf s.route) } := by
  cases hr : dinOutOfRange s.dir v
  · rw [dinRule_inRange hr] at h
    obtain ⟨rfl, hroom⟩ := push_inv h
    refine ⟨?_, by simpa using hroom, rfl⟩
    cases hd : s.dir <;> simp [hd, dinOutOfRange, fromBits] at hr ⊢
    · exact v.isLt
    · exact hr
  · rw [dinRule_range hr] at h; simp at h

theorem symRule_ok {x : Symbol} {s t : State} (h : symRule x s = .ok t) :
    s.fifo.length + 1 ≤ s.params.outDepth ∧
    t = { s with chk := polymodStep s.chk x, fifo := s.fifo ++ [mapSymbol x] } := by
  obtain ⟨rfl, hroom⟩ := push_inv h
  exact ⟨by simpa using hroom, rfl⟩

theorem flushRule_ok {s t : State} (h : flushRule s = .ok t) :
    ∃ cs, convFlush s.acc.toNat s.cnt.toNat s.pad (fromBits s.dir) (toBits s.dir) = some cs ∧
      s.fifo.length + cs.length ≤ s.params.outDepth ∧
      t = { s with
        acc := 0#12, cnt := 0#4, chk := chkAfter s.route s.chk cs, phase := rawPhase s.route .done s.phase,
        fifo := s.fifo ++ cs.map (itemOf s.route) } := by
  cases hc : convFlush s.acc.toNat s.cnt.toNat s.pad (fromBits s.dir) (toBits s.dir) with
  | none => rw [flushRule_reject hc] at h; simp at h
  | some cs =>
    rw [flushRule_some hc] at h
    obtain ⟨rfl, hroom⟩ := push_inv h
    exact ⟨cs, rfl, by simpa using hroom, rfl⟩

theorem finRule_ok {s t : State} (h : finRule s = .ok t) :
    ∃ cs, convFlush s.acc.toNat s.cnt.toNat s.pad (fromBits s.dir) (toBits s.dir) = some cs ∧
      s.fifo.length + (cs.length + 6) ≤ s.params.outDepth ∧
      t = { s with
        acc := 0#12, cnt := 0#4, phase := .done,
        chk := polymodFrom s.chk (cs.map (BitVec.ofNat 5) ++ List.replicate 6 0#5) ^^^ 1#30,
        fifo := s.fifo ++ (cs.map (BitVec.ofNat 5) ++
          checksumSymbols (polymodFrom s.chk (cs.map (BitVec.ofNat 5) ++ List.replicate 6 0#5) ^^^ 1#30)).map
            mapSymbol } := by
  cases hc : convFlush s.acc.toNat s.cnt.toNat s.pad (fromBits s.dir) (toBits s.dir) with
  | none => rw [finRule_reject hc] at h; simp at h
  | some cs =>
    rw [finRule_some hc] at h
    obtain ⟨rfl, hroom⟩ := push_inv h
    exact ⟨cs, rfl, by simpa [checksumSymbols] using hroom, rfl⟩

/-- The errors a command's own rule can end in (R99). -/
theorem ruleOf_error {i : Instr} {s : State} {e : ErrCode} (h : ruleOf i s = .error e) :
    e ∈ [ErrCode.hrpChar, .hrpFull, .range, .reject, .overflow] := by
  cases i with
  | nop => simp [ruleOf] at h
  | clr => simp [ruleOf] at h
  | cfg c => simp [ruleOf] at h
  | hrp v => simp only [ruleOf, hrpRule] at h; split_ifs at h <;> simp at h <;> subst h <;> simp
  | sep => obtain ⟨rfl, -⟩ := push_inv_error h; simp
  | din v =>
    simp only [ruleOf] at h
    cases hr : dinOutOfRange s.dir v
    · rw [dinRule_inRange hr] at h; obtain ⟨rfl, -⟩ := push_inv_error h; simp
    · rw [dinRule_range hr] at h; simp at h; subst h; simp
  | sym x => obtain ⟨rfl, -⟩ := push_inv_error h; simp
  | flush =>
    simp only [ruleOf] at h
    cases hc : convFlush s.acc.toNat s.cnt.toNat s.pad (fromBits s.dir) (toBits s.dir) with
    | none => rw [flushRule_reject hc] at h; simp at h; subst h; simp
    | some cs => rw [flushRule_some hc] at h; obtain ⟨rfl, -⟩ := push_inv_error h; simp
  | fin =>
    simp only [ruleOf] at h
    cases hc : convFlush s.acc.toNat s.cnt.toNat s.pad (fromBits s.dir) (toBits s.dir) with
    | none => rw [finRule_reject hc] at h; simp at h; subst h; simp
    | some cs => rw [finRule_some hc] at h; obtain ⟨rfl, -⟩ := push_inv_error h; simp

/-- Everything a command can do (R62, R91). -/
theorem exec_cases {i : Instr} {s t : State} (h : exec i s = .next t) :
    (i = .clr ∧ t = doClr s) ∨
    (i ≠ .clr ∧ s.phase = .err ∧ t = s) ∨
    (i ≠ .clr ∧ s.phase ≠ .err ∧ ¬ i.WellFormed ∧ t = raise .illegalOperand s) ∨
    (i ≠ .clr ∧ s.phase ≠ .err ∧ i.WellFormed ∧ s.phase ∉ legalPhases i.op s.route ∧ t = raise .sequence s) ∨
    (i ≠ .clr ∧ s.phase ∈ legalPhases i.op s.route ∧ i.WellFormed ∧
      (ruleOf i s = .ok t ∨ ∃ e, ruleOf i s = .error e ∧ t = raise e s)) := by
  by_cases hc : i = .clr
  · subst hc; exact .inl ⟨rfl, by simpa [exec_clr] using h.symm⟩
  rw [exec_of_ne_clr hc, Host.Outcome.next.injEq] at h
  subst h
  rcases dispatch_cases i (ruleOf i) s with
    ⟨h1, h⟩ | ⟨h1, h2, h⟩ | ⟨h1, h2, h3, h⟩ | ⟨h1, h2, ⟨u, hu, h⟩ | ⟨e, he, h⟩⟩
  · exact .inr (.inl ⟨hc, h1, h⟩)
  · exact .inr (.inr (.inl ⟨hc, h1, h2, h⟩))
  · exact .inr (.inr (.inr (.inl ⟨hc, h1, h2, h3, h⟩)))
  · exact .inr (.inr (.inr (.inr ⟨hc, h1, h2, .inl (h ▸ hu)⟩)))
  · exact .inr (.inr (.inr (.inr ⟨hc, h1, h2, .inr ⟨e, he, h⟩⟩)))

/-! ### Addresses -/

/-- The offsets of CMD and OUT, with the address bits [1:0] ignored (R29, R42). -/
theorem regAt_cmd {off : Nat} (h : off < 32) : regAt off = .cmd ↔ off < 4 :=
  (by decide : ∀ off : Fin 32, regAt off = .cmd ↔ off.val < 4) ⟨off, h⟩

theorem regAt_out {off : Nat} (h : off < 32) : regAt off = .out ↔ 12 ≤ off ∧ off < 16 :=
  (by decide : ∀ off : Fin 32, regAt off = .out ↔ 12 ≤ off.val ∧ off.val < 16) ⟨off, h⟩

theorem regOfAddr_inside (p : Params) {off : Nat} (h : off < 32) :
    regOfAddr p (p.base + off) = some (regAt off) := by simp [regOfAddr, h]

/-- Everything a host access that ends in a next state can do. -/
theorem hostAccess_cases {a : Access} {s t : State} (h : hostAccess a s = .next t) :
    (a = .reset ∧ t = doReset s) ∨
    (∃ ad r, a = .read ad 4 ∧ regOfAddr s.params ad = some r ∧ t = busRead r s) ∨
    (∃ ad v, a = .write ad 4 v ∧ s.params.base ≤ ad ∧ ad < s.params.base + 4 ∧ execute v s = .next t) ∨
    t = s := by
  cases a with
  | reset => exact .inl ⟨rfl, by simpa [hostAccess] using h.symm⟩
  | read ad size =>
    simp only [hostAccess] at h
    split at h
    · simp at h
    rename_i hs
    obtain rfl : size = 4 := by omega
    split at h
    · rename_i r hr; exact .inr (.inl ⟨ad, r, rfl, hr, by simpa using h.symm⟩)
    · exact .inr (.inr (.inr (by simpa using h.symm)))
  | write ad size v =>
    simp only [hostAccess] at h
    split at h
    · simp at h
    rename_i hs
    obtain rfl : size = 4 := by omega
    split at h
    · rename_i r hr
      cases r <;> simp only [busWrite, Host.Outcome.next.injEq] at h
      · refine .inr (.inr (.inl ⟨ad, v, rfl, ?_, ?_, h⟩)) <;>
          (simp [regOfAddr] at hr; have := (regAt_cmd (by omega)).1 hr.2; omega)
      all_goals exact .inr (.inr (.inr h.symm))
    · exact .inr (.inr (.inr (by simpa using h.symm)))

end Sys2Proof.Machine
end

