-- ==== Sys2Proof/Laws/Frame.lean ====
section
/-! SUPPORT. What a command leaves alone: the fields its rule does not write, the host's side, and the small facts of
the invariant that later proofs cite. -/

namespace Sys2Proof.Machine

/-! ### What a rule that succeeds writes -/

theorem ruleOf_frame {i : Instr} {s t : State} (h : ruleOf i s = .ok t) :
    t.params = s.params ∧ t.pending = s.pending ∧ t.readBack = s.readBack ∧
    (i.op ≠ .cfg → t.cfg = s.cfg) ∧
    (i.op ≠ .hrp → t.hrpBuf = s.hrpBuf) ∧
    (i.op ∉ [Op.hrp, Op.clr] → t.hrpLen = s.hrpLen) ∧
    (i.op ∉ [Op.din, Op.flush, Op.fin, Op.clr] → t.acc = s.acc ∧ t.cnt = s.cnt) ∧
    (i.op ∉ [Op.sep, Op.din, Op.sym, Op.flush, Op.fin, Op.clr] → t.chk = s.chk) := by
  cases i <;> simp only [ruleOf] at h
  case nop => simp at h; subst h; simp [Instr.op]
  case clr => simp at h; subst h; simp [Instr.op]
  case cfg => simp at h; subst h; simp [Instr.op]
  case hrp => obtain ⟨-, -, rfl⟩ := hrpRule_ok h; simp [Instr.op]
  case sep => obtain ⟨-, rfl⟩ := sepRule_ok h; simp [Instr.op]
  case din => obtain ⟨-, -, rfl⟩ := dinRule_ok h; simp [Instr.op]
  case sym => obtain ⟨-, rfl⟩ := symRule_ok h; simp [Instr.op]
  case flush => obtain ⟨_, -, -, rfl⟩ := flushRule_ok h; simp [Instr.op]
  case fin => obtain ⟨_, -, -, rfl⟩ := finRule_ok h; simp [Instr.op]

/-- A rule that succeeds does not enter ERR. -/
theorem ruleOf_phase {i : Instr} {s t : State} (h : ruleOf i s = .ok t) (hp : s.phase ≠ .err) : t.phase ≠ .err := by
  cases i <;> simp only [ruleOf] at h
  case nop => simp at h; subst h; exact hp
  case clr => simp at h; subst h; simp
  case cfg => simp at h; subst h; exact hp
  case hrp => obtain ⟨-, -, rfl⟩ := hrpRule_ok h; simp
  case sep => obtain ⟨-, rfl⟩ := sepRule_ok h; simp
  case din => obtain ⟨-, -, rfl⟩ := dinRule_ok h; simp [rawPhase]; split <;> simp [hp]
  case sym => obtain ⟨-, rfl⟩ := symRule_ok h; exact hp
  case flush => obtain ⟨_, -, -, rfl⟩ := flushRule_ok h; simp [rawPhase]; split <;> simp [hp]
  case fin => obtain ⟨_, -, -, rfl⟩ := finRule_ok h; simp

/-- A command that enters ERR raised an error in the state it started from. -/
theorem exec_raised {i : Instr} {s t : State} (h : exec i s = .next t) (hp : s.phase ≠ .err) (ht : t.phase = .err) :
    ∃ e, e ≠ .noError ∧ t = raise e s := by
  rcases exec_cases h with ⟨rfl, rfl⟩ | ⟨_, _, rfl⟩ | ⟨_, _, _, rfl⟩ | ⟨_, _, _, _, rfl⟩ |
    ⟨_, _, _, h | ⟨e, he, rfl⟩⟩
  · simp at ht
  · exact absurd ht hp
  · exact ⟨_, by simp, rfl⟩
  · exact ⟨_, by simp, rfl⟩
  · exact absurd ht (ruleOf_phase h hp)
  · refine ⟨e, ?_, rfl⟩
    have := ruleOf_error he
    rintro rfl; simp at this

/-- In ERR a command but CLR is ignored (R95). -/
theorem exec_in_err {s : State} (h : s.phase = .err) {i : Instr} (hi : i ≠ .clr) : exec i s = .next s := by
  rw [exec_of_ne_clr hi, dispatch_err h]

/-! ### Commands do not see the host's queue -/

theorem push_withPending (l : List Byte) (s : State) (q : List Access) :
    push l { s with pending := q } = (push l s).map (fun t => { t with pending := q }) := by
  simp only [push]; split <;> rfl

theorem ruleOf_withPending (i : Instr) (s : State) (q : List Access) :
    ruleOf i { s with pending := q } = (ruleOf i s).map (fun t => { t with pending := q }) := by
  cases i with
  | nop => rfl
  | clr => rfl
  | cfg c => rfl
  | hrp v => simp only [ruleOf, hrpRule]; split; rfl; split; rfl; rfl
  | sep => exact push_withPending _ { s with chk := _, phase := _ } q
  | sym x => exact push_withPending _ { s with chk := _ } q
  | din v =>
    simp only [ruleOf]
    cases h : dinOutOfRange s.dir v
    · rw [dinRule_inRange h, dinRule_inRange (s := { s with pending := q }) h]
      exact push_withPending _ { s with acc := _, cnt := _, chk := _, phase := _ } q
    · rw [dinRule_range h, dinRule_range (s := { s with pending := q }) h]; rfl
  | flush =>
    simp only [ruleOf]
    cases h : convFlush s.acc.toNat s.cnt.toNat s.pad (fromBits s.dir) (toBits s.dir) with
    | none => rw [flushRule_reject h, flushRule_reject (s := { s with pending := q }) h]; rfl
    | some cs =>
      rw [flushRule_some h, flushRule_some (s := { s with pending := q }) h]
      exact push_withPending _ { s with acc := _, cnt := _, chk := _, phase := _ } q
  | fin =>
    simp only [ruleOf]
    cases h : convFlush s.acc.toNat s.cnt.toNat s.pad (fromBits s.dir) (toBits s.dir) with
    | none => rw [finRule_reject h, finRule_reject (s := { s with pending := q }) h]; rfl
    | some cs =>
      rw [finRule_some h, finRule_some (s := { s with pending := q }) h]
      exact push_withPending _ { s with acc := _, cnt := _, chk := _, phase := _ } q

/-- A command's effect is the same whatever accesses are to come. -/
theorem exec_withPending (i : Instr) (s : State) (q : List Access) :
    ∃ t, exec i s = .next t ∧ exec i { s with pending := q } = .next { t with pending := q } := by
  by_cases hc : i = .clr
  · subst hc; exact ⟨_, rfl, rfl⟩
  refine ⟨_, exec_of_ne_clr hc s, ?_⟩
  rw [exec_of_ne_clr hc]
  congr 1
  simp only [dispatch, ruleOf_withPending]
  split; · rfl
  split; · rfl
  rw [show ({ s with pending := q } : State).route = s.route from rfl]
  split; · rfl
  cases ruleOf i s <;> rfl

/-! ### Small facts of the invariant -/

theorem hrpChars_length {s : State} (hI : Inv s) : s.hrpChars.length = s.hrpLen.toNat := by
  simp [State.hrpChars, hI.buf_len, hI.hrp_le]

/-- The ENC route converts 8-to-5 only (R24). -/
theorem dir_of_enc {s : State} (hI : Inv s) (hr : s.route = .enc) : s.dir = .eightToFive := by
  have := hI.cfg_legal
  unfold State.route at hr; unfold State.dir
  generalize s.cfg = c at *
  revert c; decide

/-- The invariant does not speak of the host's side. -/
theorem Inv.withHost {s : State} (h : Inv s) (q : List Access) (r : List Word) :
    Inv { s with pending := q, readBack := r } := by
  obtain ⟨a, b, c, d, e, f, g, i, j, k, l, m, n, o, p⟩ := h
  exact ⟨a, b, c, d, e, f, g, i, j, k, l, m, n, o, p⟩

/-- The new count fits its four bits. -/
theorem cnt_toNat (d : Dir) (n : Nat) : (BitVec.ofNat 4 (n % toBits d)).toNat = n % toBits d := by
  have := Nat.mod_lt n (toBits_pos d)
  have : toBits d ≤ 8 := by cases d <;> decide
  simp; omega

/-! ### Runs of commands -/

theorem execAll_append {xs ys : List Instr} {s t : State} (h : execAll xs s = .next t) :
    execAll (xs ++ ys) s = execAll ys t := by
  induction xs generalizing s with
  | nil => cases h; rfl
  | cons x xs ih =>
    simp only [List.cons_append, execAll] at h ⊢
    split at h
    · exact ih h
    · simp at h
    · simp at h

theorem execAll_single {i : Instr} {s t : State} (h : exec i s = .next t) : execAll [i] s = .next t := by
  simp [execAll, h]

end Sys2Proof.Machine
end

