-- ==== Sys2Proof/Laws/PerInstr.lean ====
section
/-! SUPPORT. One statement per command, about its encoding. -/

/-- Every command's word has the layout of 30_encoding.md R52: the reserved bits 0, the opcode of R55, the operand
byte of R54, and, when the command is well formed, it is a well-formed word (R56). -/
def Sys2Proof.Laws.WordLayout.Statement (i : Sys2Proof.Instr) : Prop :=
  Sys2Proof.reservedHigh (Sys2Proof.encode i) = 0#16 ∧ Sys2Proof.reservedMid (Sys2Proof.encode i) = 0#4 ∧
  Sys2Proof.opField (Sys2Proof.encode i) = Sys2Proof.opBits i.op ∧
  Sys2Proof.imm8 (Sys2Proof.encode i) = Sys2Proof.immBits i ∧
  (i.WellFormed → Sys2Proof.withOperand i.op (Sys2Proof.immBits i) = some i)

namespace Sys2Proof.Laws.WordLayout

theorem nop : Statement .nop := by unfold Statement; decide
theorem clr : Statement .clr := by unfold Statement; decide
theorem cfg (c : BitVec 3) : Statement (.cfg c) := by unfold Statement; revert c; decide
theorem hrp (v : Byte) : Statement (.hrp v) := by unfold Statement; revert v; decide
theorem sep : Statement .sep := by unfold Statement; decide
theorem din (v : Byte) : Statement (.din v) := by unfold Statement; revert v; decide
theorem sym (x : Symbol) : Statement (.sym x) := by unfold Statement; revert x; decide
theorem flush : Statement .flush := by unfold Statement; decide
theorem fin : Statement .fin := by unfold Statement; decide

end Sys2Proof.Laws.WordLayout
end

