-- ==== Sys2Proof/Laws/Stream.lean ====
section
/-! SUPPORT. Bit streams as numbers: what `bitsOf`, `numberOf`, `wholeChunks` and `convert` (Safety.lean) come to in
arithmetic, and that chunks taken in two goes are the chunks of the whole (40_converter.md R70). -/

namespace Sys2Proof.Machine

/-! ### Chunks -/

/-- A chunk depends only on the number modulo a power above it. -/
theorem chunk_congr {x y e wo m : Nat} (h : x % 2 ^ m = y % 2 ^ m) (hm : e + wo ≤ m) :
    x / 2 ^ e % 2 ^ wo = y / 2 ^ e % 2 ^ wo := by
  have k : ∀ z : Nat, z / 2 ^ e % 2 ^ wo = (z % 2 ^ m) / 2 ^ e % 2 ^ wo := by
    intro z
    rw [show m = e + (m - e) by omega, Nat.pow_add, Nat.mod_mul_right_div_self, Nat.mod_mod_of_dvd]
    exact pow_dvd_pow 2 (by omega)
  rw [k x, k y, h]

/-- The chunks of `n + m` bits: those of the first `n`, then those of what is left of them with the next `m`. -/
theorem wholeChunks_append {a a' b n m wo : Nat} (hwo : 0 < wo) (hb : b < 2 ^ m)
    (ha : a % 2 ^ (n % wo) = a' % 2 ^ (n % wo)) :
    wholeChunks (a * 2 ^ m + b) (n + m) wo = wholeChunks a n wo ++ wholeChunks (a' * 2 ^ m + b) (n % wo + m) wo := by
  have hd : (n + m) / wo = n / wo + (n % wo + m) / wo := by
    conv_lhs => rw [← Nat.div_add_mod n wo, Nat.add_assoc, Nat.mul_add_div hwo]
  simp only [wholeChunks, hd, List.range_add, List.map_append, List.map_map]
  congr 1
  · apply List.map_congr_left
    intro k hk
    simp only [List.mem_range] at hk
    have h1 : (k + 1) * wo ≤ n := le_trans (Nat.mul_le_mul_right _ hk) (Nat.div_mul_le_self n wo)
    rw [show n + m - (k + 1) * wo = m + (n - (k + 1) * wo) by omega, Nat.pow_add, ← Nat.div_div_eq_div_mul]
    congr 2
    rw [Nat.mul_comm, Nat.mul_add_div (by positivity), Nat.div_eq_of_lt hb, Nat.add_zero]
  · apply List.map_congr_left
    intro j hj
    simp only [List.mem_range] at hj
    simp only [Function.comp]
    have h1 : (j + 1) * wo ≤ n % wo + m := le_trans (Nat.mul_le_mul_right _ hj) (Nat.div_mul_le_self _ wo)
    have h2 : n + m - (n / wo + j + 1) * wo = n % wo + m - (j + 1) * wo := by
      have := Nat.div_add_mod n wo
      rw [Nat.add_assoc (n / wo), Nat.add_mul, Nat.mul_comm (n / wo) wo]; omega
    have h3 : wo ≤ (j + 1) * wo := Nat.le_mul_of_pos_left _ (by omega)
    rw [h2]
    apply chunk_congr (m := n % wo + m) _ (by omega)
    rw [Nat.pow_add, Nat.mul_comm (2 ^ (n % wo)), Nat.mul_comm a, Nat.mul_comm a', Nat.mod_mul, Nat.mod_mul]
    simp [Nat.mul_add_div, Nat.div_eq_of_lt hb, ha]

theorem chkAfter_append (r : Route) (c : Chk) (xs ys : List Nat) :
    chkAfter r c (xs ++ ys) = chkAfter r (chkAfter r c xs) ys := by
  cases r <;> simp [chkAfter, polymodFrom]

/-! ### The number a sequence of values spells -/

def valuesNum (wi : Nat) (vs : List Nat) : Nat := vs.foldl (fun a v => a * 2 ^ wi + v) 0

theorem valuesNum_cons (wi v : Nat) (vs : List Nat) :
    valuesNum wi (v :: vs) = v * 2 ^ (wi * vs.length) + valuesNum wi vs := by
  have go : ∀ (vs : List Nat) a,
      vs.foldl (fun a v => a * 2 ^ wi + v) a = a * 2 ^ (wi * vs.length) + valuesNum wi vs := by
    intro vs
    induction vs with
    | nil => intro a; simp [valuesNum]
    | cons v vs ih =>
      intro a
      simp only [List.foldl_cons, valuesNum, List.length_cons]
      rw [ih, ih]; simp only [Nat.mul_add, Nat.pow_add, Nat.mul_one]; ring
  simp only [valuesNum, List.foldl_cons]
  rw [go]; simp [valuesNum]

theorem valuesNum_lt {wi : Nat} {vs : List Nat} (h : ∀ v ∈ vs, v < 2 ^ wi) :
    valuesNum wi vs < 2 ^ (wi * vs.length) := by
  induction vs with
  | nil => simp [valuesNum]
  | cons v vs ih =>
    rw [valuesNum_cons]
    have h1 := h v (by simp)
    have h2 := ih (fun v hv => h v (by simp [hv]))
    simp only [List.length_cons, Nat.mul_add, Nat.mul_one, Nat.pow_add]
    nlinarith

/-! ### Bits -/

theorem numberOf_append (xs ys : List Bool) : numberOf (xs ++ ys) = numberOf xs * 2 ^ ys.length + numberOf ys := by
  have go : ∀ (ys : List Bool) a, ys.foldl (fun a b => 2 * a + b.toNat) a = a * 2 ^ ys.length + numberOf ys := by
    intro ys
    induction ys with
    | nil => intro a; simp [numberOf]
    | cons y ys ih => intro a; simp only [numberOf, List.foldl_cons, List.length_cons]; rw [ih, ih]; ring
  simp only [numberOf, List.foldl_append]
  rw [go]; simp [numberOf]

theorem numberOf_lt (xs : List Bool) : numberOf xs < 2 ^ xs.length := by
  induction xs using List.reverseRecOn with
  | nil => simp [numberOf]
  | append_singleton xs x ih =>
    have h1 : numberOf [x] ≤ 1 := by cases x <;> decide
    rw [numberOf_append]
    simp only [List.length_append, List.length_cons, List.length_nil, Nat.zero_add, Nat.pow_succ]
    omega

theorem numberOf_bitsOf (w v : Nat) : numberOf (bitsOf w v) = v % 2 ^ w := by
  induction w generalizing v with
  | zero => simp [bitsOf, numberOf, Nat.mod_one]
  | succ w ih =>
    have h1 : bitsOf (w + 1) v = bitsOf w (v / 2) ++ [v.testBit 0] := by
      simp only [bitsOf, List.range_succ, List.map_append, List.map_cons, List.map_nil]
      congr 1
      · apply List.map_congr_left; intro i hi
        simp only [List.mem_range] at hi
        rw [← Nat.testBit_add_one]; congr 1; omega
      · simp
    rw [h1, numberOf_append, ih]
    simp [numberOf, Nat.pow_succ]
    rw [Nat.mul_comm (2 ^ w) 2, Nat.mod_mul, Nat.mul_comm]
    have : v % 2 = 0 ∨ v % 2 = 1 := by omega
    rcases this with h | h <;> simp [h] <;> omega

/-- The stream of a sequence of values. -/
theorem stream_eq {wi : Nat} {vs : List Nat} (h : ∀ v ∈ vs, v < 2 ^ wi) :
    numberOf (vs.flatMap (bitsOf wi)) = valuesNum wi vs ∧ (vs.flatMap (bitsOf wi)).length = wi * vs.length := by
  induction vs with
  | nil => simp [numberOf, valuesNum]
  | cons v vs ih =>
    have ih := ih (fun v hv => h v (by simp [hv]))
    simp only [List.flatMap_cons, numberOf_append, List.length_append, List.length_cons, ih.1, ih.2, valuesNum_cons,
      numberOf_bitsOf, Nat.mod_eq_of_lt (h v (by simp))]
    simp [bitsOf, Nat.mul_add]; omega

theorem numberOf_drop {bs : List Bool} {d : Nat} (h : d ≤ bs.length) :
    numberOf (bs.drop d) = numberOf bs % 2 ^ (bs.length - d) := by
  conv_rhs => rw [← List.take_append_drop d bs, numberOf_append]
  simp only [List.length_append, List.length_take, List.length_drop]
  rw [show min d bs.length + (bs.length - d) - d = bs.length - d by omega, Nat.mul_comm, Nat.mul_add_mod]
  have := numberOf_lt (bs.drop d)
  rw [List.length_drop] at this
  exact (Nat.mod_eq_of_lt this).symm

theorem numberOf_take {bs : List Bool} {d : Nat} (h : d ≤ bs.length) :
    numberOf (bs.take d) = numberOf bs / 2 ^ (bs.length - d) := by
  conv_rhs => rw [← List.take_append_drop d bs, numberOf_append]
  simp only [List.length_append, List.length_take, List.length_drop]
  rw [show min d bs.length + (bs.length - d) - d = bs.length - d by omega, Nat.mul_comm,
    Nat.mul_add_div (by positivity)]
  have := numberOf_lt (bs.drop d)
  rw [List.length_drop] at this
  rw [Nat.div_eq_of_lt this]; rfl

theorem true_mem_iff (bs : List Bool) : true ∈ bs ↔ numberOf bs ≠ 0 := by
  induction bs using List.reverseRecOn with
  | nil => simp [numberOf]
  | append_singleton xs x ih => rw [numberOf_append]; cases x <;> simp_all [numberOf]

theorem numberOf_zeros (n : Nat) : numberOf (List.replicate n false) = 0 := by
  induction n with
  | zero => rfl
  | succ n ih => rw [List.replicate_succ', numberOf_append, ih]; rfl

/-- `convert` in arithmetic: the whole chunks of the number the values spell, and its last `r` bits. -/
theorem convert_eq (wi wo : Nat) (pad : Bool) (vs : List Nat) (h : ∀ v ∈ vs, v < 2 ^ wi) :
    convert wi wo pad vs =
      let n := valuesNum wi vs
      let r := wi * vs.length % wo
      if pad then
        some (wholeChunks n (wi * vs.length) wo ++ if r = 0 then [] else [n % 2 ^ r * 2 ^ (wo - r)])
      else if wi ≤ r ∨ n % 2 ^ r ≠ 0 then none
      else some (wholeChunks n (wi * vs.length) wo) := by
  obtain ⟨h1, h2⟩ := stream_eq h
  simp only [convert]
  generalize vs.flatMap (bitsOf wi) = bs at *
  rw [← h1, ← h2]
  have hw : (List.range (bs.length / wo)).map (fun j => numberOf ((bs.drop (j * wo)).take wo)) =
      wholeChunks (numberOf bs) bs.length wo := by
    simp only [wholeChunks]
    apply List.map_congr_left
    intro j hj
    simp only [List.mem_range] at hj
    have h1 : (j + 1) * wo ≤ bs.length := le_trans (Nat.mul_le_mul_right _ hj) (Nat.div_mul_le_self _ wo)
    rw [Nat.add_mul, Nat.one_mul] at h1 ⊢
    rw [numberOf_take (by simp; omega), numberOf_drop (by omega), List.length_drop]
    generalize hy : bs.length - (j * wo + wo) = y
    rw [show bs.length - j * wo = y + wo by omega, Nat.pow_add, Nat.add_sub_cancel, Nat.mod_mul_right_div_self]
  have hq : bs.length / wo * wo ≤ bs.length := Nat.div_mul_le_self _ _
  have hr : bs.length - bs.length / wo * wo = bs.length % wo := by
    have := Nat.div_add_mod bs.length wo; rw [Nat.mul_comm] at this; omega
  have hl : numberOf (bs.drop (bs.length / wo * wo)) = numberOf bs % 2 ^ (bs.length % wo) := by
    rw [numberOf_drop hq, hr]
  have hn : bs.drop (bs.length / wo * wo) = [] ↔ bs.length % wo = 0 := by simp only [List.drop_eq_nil_iff]; omega
  have hp : numberOf (bs.drop (bs.length / wo * wo) ++ List.replicate (wo - bs.length % wo) false) =
      numberOf bs % 2 ^ (bs.length % wo) * 2 ^ (wo - bs.length % wo) := by
    rw [numberOf_append, numberOf_zeros, hl, List.length_replicate]; omega
  simp only [hw, true_mem_iff, hl, List.length_drop, hr, hn, hp]

end Sys2Proof.Machine
end

