-- ==== Sys2Proof/Tests/Slice0.lean ====
section
/-! SUPPORT. Tests of the model, each on one operation or one step, with the expected value from spec/ (the vector of
95_test_vectors.md or the rule is named beside each); and, for every statement with hypotheses, a witness that meets
them. -/

namespace Sys2Proof.Tests

open Sys2Proof Sys2Proof.Machine

/-! ### Small states -/

/-- The smallest useful instance: 2 characters, 7 items, window at 0x20. -/
def small : Params := ⟨2, 7, 32⟩

/-- The small instance with configuration `c` in phase `p`. -/
def at_ (c : BitVec 3) (p : Phase) : State := { State.resetWith small with cfg := c, phase := p }

/-- The small instance holding the prefix `a`. -/
def prefixA : State := { at_ 1#3 .hrp with hrpLen := 1#8, hrpBuf := [0x61#7, 0#7] }

/-- The small instance after `hrp 'a'`, `sep` (CK2). -/
def dataA : State := { prefixA with phase := .data, chk := 0x8c01#30, fifo := [0x61#8, 0x31#8] }

/-- `s` with converter contents. -/
def buffered (a : BitVec 12) (n : BitVec 4) (s : State) : State := { s with acc := a, cnt := n }

/-- `s` with FIFO contents. -/
def holding (items : List Byte) (s : State) : State := { s with fifo := items }

/-- `s` with accesses to come. -/
def asked (q : List Access) (s : State) : State := { s with pending := q }

/-- STATUS, CHK, ACC and the FIFO after an outcome: the columns of 95_test_vectors.md. -/
def shown : Host.Outcome State Fault Refusal → Option (Word × Word × Word × List Byte)
  | .next s => some (regValue .status s, regValue .chk s, regValue .acc s, s.fifo)
  | .fault _ => none
  | .refused _ => none

/-- The next state of an outcome. -/
def after : Host.Outcome State Fault Refusal → Option State
  | .next s => some s
  | .fault _ => none
  | .refused _ => none

theorem next_of_after {o : Host.Outcome State Fault Refusal} {t : State} (h : after o = some t) : o = .next t := by
  cases o <;> simp_all [after]

/-! ### WellFormed: the only ill-formed commands of the syntax (R24, R56) -/

theorem test_wellFormed_refuses_cfg2 : Instr.wellFormed (.cfg 2#3) = false := by decide
theorem test_wellFormed_refuses_cfg3 : Instr.wellFormed (.cfg 3#3) = false := by decide
theorem test_wellFormed_accepts_cfg1 : Instr.wellFormed (.cfg 1#3) = true := by decide

/-! ### Decoding: words written out from the formats of R53 and the opcodes of R55 -/

theorem test_decode_nop : decode 0b0000000000000000_0000_0000_00000000#32 = .ok .nop := by decide
theorem test_decode_clr : decode 0b0000000000000000_0001_0000_00000000#32 = .ok .clr := by decide
theorem test_decode_cfg : decode 0b0000000000000000_0010_0000_00000110#32 = .ok (.cfg 0b110#3) := by decide
theorem test_decode_hrp : decode 0b0000000000000000_0011_0000_01100001#32 = .ok (.hrp 0x61#8) := by decide
theorem test_decode_sep : decode 0b0000000000000000_0100_0000_00000000#32 = .ok .sep := by decide
theorem test_decode_din : decode 0b0000000000000000_0101_0000_10110101#32 = .ok (.din 0xb5#8) := by decide
theorem test_decode_sym : decode 0b0000000000000000_0110_0000_00010011#32 = .ok (.sym 19#5) := by decide
theorem test_decode_flush : decode 0b0000000000000000_0111_0000_00000000#32 = .ok .flush := by decide
theorem test_decode_fin : decode 0b0000000000000000_1000_0000_00000000#32 = .ok .fin := by decide

/-- EN1, EN6: a reserved opcode, also with a reserved bit set. -/
theorem test_decode_reserved_opcode :
    decode 0x00009000#32 = .error .illegalOpcode ∧ decode 0x00019000#32 = .error .illegalOpcode ∧
    decode 0x0000f0ff#32 = .error .illegalOpcode := by decide

/-- EN3, EN4, EN5, CT3, CT4, CT5, MP4: reserved bits and operand bits. -/
theorem test_decode_illegal_operand :
    decode 0x00000001#32 = .error .illegalOperand ∧ decode 0x00010000#32 = .error .illegalOperand ∧
    decode 0x00000100#32 = .error .illegalOperand ∧ decode 0x00002002#32 = .error .illegalOperand ∧
    decode 0x00002003#32 = .error .illegalOperand ∧ decode 0x00002008#32 = .error .illegalOperand ∧
    decode 0x00006020#32 = .error .illegalOperand := by decide

theorem test_decodeTableWord :
    decodeTableWord 32 0x00006013 = some (.sym 19#5) ∧ decodeTableWord 32 0x00009000 = none := by decide

/-! ### Functions (section 2 of the vectors) -/

/-- PM3 to PM8, PM10. -/
theorem test_polymodStep :
    polymodStep 0x02000000#30 0#5 = 0x3b6a57b2#30 ∧ polymodStep 0x04000000#30 0#5 = 0x26508e6d#30 ∧
    polymodStep 0x08000000#30 0#5 = 0x1ea119fa#30 ∧ polymodStep 0x10000000#30 0#5 = 0x3d4233dd#30 ∧
    polymodStep 0x20000000#30 0#5 = 0x2a1462b3#30 ∧ polymodStep 0x3e000000#30 0#5 = 0x14cd914b#30 ∧
    polymodStep 0x3fffffff#30 31#5 = 0x2b326eb4#30 := by decide

/-- PM14: the polymod of the prefix `addr_test`. -/
theorem test_hrpExpand :
    polymodFrom 1#30 (hrpExpand [0x61#7, 0x64#7, 0x64#7, 0x72#7, 0x5f#7, 0x74#7, 0x65#7, 0x73#7, 0x74#7]) =
      0x0bda92c6#30 := by decide

/-- PM15. -/
theorem test_finalise :
    finalise 0x00008c01#30 = 0x15ccfe9f#30 ∧ sixSymbols 0x15ccfe9f#30 = [10#5, 28#5, 25#5, 31#5, 20#5, 31#5] := by
  decide

/-- CV6, CV5, CV14, CV12: the source's function on whole sequences. -/
theorem test_convert :
    convert 8 5 true [0x01, 0x23, 0x45, 0x67, 0x89] = some [0x00, 0x04, 0x11, 0x14, 0x0a, 0x19, 0x1c, 0x09] ∧
    convert 8 5 false [0x01] = none ∧ convert 5 8 false [31, 28] = some [0xff] ∧ convert 5 8 false [31] = none := by
  decide

/-! ### One step of each command (section 3 of the vectors) -/

/-- CT1. -/
theorem test_nop : shown (exec .nop State.reset) = some (0#32, 1#32, 0#32, []) := by decide

/-- CT8: unread items are discarded. -/
theorem test_clr : shown (exec .clr { dataA with phase := .done }) = some (0#32, 1#32, 0#32, []) := by decide

/-- CT7: CLR keeps `cfg`. -/
theorem test_clr_keeps_cfg : (after (exec .clr (at_ 5#3 .idle))).map (regValue .cfg) = some 5#32 := by decide

/-- CT2. -/
theorem test_cfg : (after (exec (.cfg 6#3) State.reset)).map (regValue .cfg) = some 6#32 := by decide

/-- CT6: CFG outside IDLE. -/
theorem test_cfg_sequence : shown (exec (.cfg 5#3) prefixA) = some (0x00010037#32, 1#32, 0#32, []) := by decide

/-- CK1. -/
theorem test_hrp : shown (exec (.hrp 0x61#8) State.reset) = some (0x00010001#32, 1#32, 0#32, []) := by decide

/-- CK8: HRP_CHAR is checked before HRP_FULL. -/
theorem test_hrp_char_first :
    shown (exec (.hrp 0x80#8) { State.reset with phase := .hrp, hrpLen := 16#8 }) =
      some (0x00100047#32, 1#32, 0#32, []) := by decide

/-- CK2. -/
theorem test_sep : shown (exec .sep prefixA) = some (0x00010202#32, 0x8c01#32, 0#32, [0x61#8, 0x31#8]) := by decide

/-- CK9: an empty prefix. -/
theorem test_sep_empty : shown (exec .sep State.reset) = some (0x00000037#32, 1#32, 0#32, []) := by decide

/-- PC2, CV8: two chunks in one DIN. -/
theorem test_din :
    shown (exec (.din 0xff#8) (buffered 0xff#12 3#4 (holding [0x1f#8] (at_ 5#3 .conv)))) =
      some (0x01000303#32, 1#32, 0xfff#32, [0x1f#8, 0x1f#8, 0x1f#8]) := by decide

/-- PC7, CV14: 5-to-8. -/
theorem test_din_back :
    shown (exec (.din 28#8) (buffered 0x1f#12 5#4 (at_ 6#3 .conv))) =
      some (0x02000103#32, 1#32, 0x3fc#32, [0xff#8]) := by decide

/-- CV1. -/
theorem test_flush :
    shown (exec .flush (buffered 0xff#12 3#4 (holding [0x1f#8] (at_ 5#3 .conv)))) =
      some (0x00000204#32, 1#32, 0#32, [0x1f#8, 0x1c#8]) := by decide

/-- CV12: REJECT keeps the converter's contents. -/
theorem test_flush_reject :
    shown (exec .flush (buffered 0x1f#12 5#4 (at_ 6#3 .conv))) = some (0x05000077#32, 1#32, 0x1f#32, []) := by decide

/-- MP2: the second symbol. -/
theorem test_sym :
    shown (exec (.sym 31#5) (holding [0x61#8, 0x31#8, 0x71#8] { dataA with chk := 0x00118020#30 })) =
      some (0x00010402#32, 0x0230041f#32, 0#32, [0x61#8, 0x31#8, 0x71#8, 0x6c#8]) := by decide

/-- MP6. -/
theorem test_sym_sequence : shown (exec (.sym 0#5) State.reset) = some (0x00000037#32, 1#32, 0#32, []) := by decide

/-- CK3: `a12uel5l`. -/
theorem test_fin :
    shown (exec .fin { dataA with params := Params.reference }) =
      some (0x00010804#32, 0x15ccfe9f#32, 0#32,
        [0x61#8, 0x31#8, 0x32#8, 0x75#8, 0x65#8, 0x6c#8, 0x35#8, 0x6c#8]) := by decide

/-- CK13: REJECT. -/
theorem test_fin_reject :
    shown (exec .fin (buffered 1#12 3#4 (holding [0x61#8, 0x31#8, 0x71#8]
      { dataA with cfg := 0#3, chk := 0x00118020#30 }))) = some (0x03010077#32, 0x00118020#32, 1#32, []) := by decide

/-! ### The bus (section 3.7 of the vectors) -/

/-- BU1: every offset after reset. -/
theorem test_reset_reads :
    [Reg.cmd, .status, .cfg, .out, .chk, .acc, .reserved18, .reserved1C].map (fun r => regValue r State.reset) =
      [0#32, 0#32, 1#32, 0#32, 1#32, 0#32, 0#32, 0#32] := by decide

/-- BU3, first read: VALID and the head item. -/
theorem test_out_pops :
    ((busRead .out dataA).readBack, (busRead .out dataA).fifo) = ([0x161#32], [0x31#8]) := by decide

/-- BU5, BU6: the low address bits are ignored. -/
theorem test_low_address_bits :
    shown (hostAccess (.write 0x03 4 0x00003061#32) State.reset) = some (0x00010001#32, 1#32, 0#32, []) ∧
    (after (hostAccess (.read 0x27 4) prefixA)).map State.readBack = some [0x00010001#32] := by decide

/-- BU4: a write to a read-only offset. -/
theorem test_write_ignored :
    after (hostAccess (.write 0x04 4 0xffffffff#32) State.reset) = some State.reset := by decide

/-- BU8: reset restores `cfg`. -/
theorem test_reset_restores_cfg : (after (hostAccess .reset (at_ 5#3 .idle))).map (regValue .cfg) = some 1#32 := by
  decide

/-- The first step after reset runs the word placed. -/
theorem test_withFetchWord :
    shown (step (State.reset.withFetchWord 32 0x00003061)) = some (0x00010001#32, 1#32, 0#32, []) := by decide

/-! ### Assembler (R60, R61) -/

theorem test_assemble :
    assemble Params.reference (.cfg .raw .fiveToEight false) = some (.write 0 4 0x00002006#32) ∧
    assemble Params.reference (.hrpLit 'a') = some (.write 0 4 0x00003061#32) ∧
    assemble Params.reference (.symLit 'l') = some (.write 0 4 0x0000601f#32) ∧
    assemble Params.reference (.rd .out) = some (.read 0x0C 4) ∧
    assemble Params.reference (.din 256) = none ∧ assemble Params.reference (.symLit 'b') = none := by decide

/-- The lines of P1, P3 and P4, and two operands R60 refuses. -/
theorem test_lineText :
    lineText "hrp" ["'a'"] = some (.hrpLit 'a') ∧ lineText "din" ["0x71"] = some (.din 0x71) ∧
    lineText "din" ["31"] = some (.din 31) ∧ lineText "cfg" ["raw", "5to8", "nopad"] = some (.cfg .raw .fiveToEight false) ∧
    lineText "wr" ["CMD", "0x00009000"] = some (.wr 0x00009000#32) ∧ lineText "rd" ["CMD"] = none ∧
    (lineText "din" ["256"]).bind (assemble Params.reference) = none := by decide

/-- The first three bytes of the hash of P2. -/
theorem test_dinhex : expand (.dinhex ['7', '9', '5', 'b', '0', '8']) = some [.din 0x79, .din 0x5b, .din 0x08] := by
  decide

/-! ### Witnesses: the hypotheses of each statement can be met, clause by clause -/

theorem inv_of {s : State}
    (h : s.params.Wf ∧ (s.err = .noError ↔ s.phase ≠ .err) ∧ (s.phase = .err → s.fifo = []) ∧
      s.cnt.toNat < toBits s.dir ∧ (s.phase = .idle ∨ s.phase = .hrp ∨ s.phase = .done → s.cnt = 0#4) ∧
      (s.route = .raw ∨ s.phase = .idle → s.hrpLen = 0#8) ∧
      (s.phase = .idle ∨ s.phase = .hrp ∨ s.route = .raw → s.chk = 1#30) ∧ CfgLegal s.cfg ∧
      s.hrpLen.toNat ≤ s.params.hrpMax ∧ s.hrpBuf.length = s.params.hrpMax ∧
      s.fifo.length ≤ s.params.outDepth ∧
      (s.phase = .hrp ∨ s.phase = .data → s.route = .enc ∧ 0 < s.hrpLen.toNat) ∧
      (s.phase = .conv → s.route = .raw) ∧ (s.phase = .idle ∨ s.phase = .hrp → s.fifo = [] ∧ s.acc = 0#12) ∧
      (s.phase = .done → s.route = .enc → 0 < s.hrpLen.toNat)) : Inv s := by
  obtain ⟨a, b, c, d, e, f, g, i, j, k, l, m, n, o, p⟩ := h
  exact ⟨a, b, c, d, e, f, g, i, j, k, l, m, n, o, p⟩

/-- A state in ERR. -/
def failed : State := { at_ 1#3 .err with err := .sequence }

/-- A state on the RAW route whose FIFO is full. -/
def fullRaw (c : BitVec 3) : State := holding (List.replicate 7 0#8) (at_ c .conv)

/-- A state in DATA whose FIFO is full. -/
def fullData : State := holding (List.replicate 7 0x71#8) dataA

/-- A state in DATA whose FIFO is empty (the host has read it). -/
def roomyData : State := holding [] dataA

/-- Both edges of the parameters' ranges (R6). -/
theorem witness_InvHoldsAtReset : Params.Wf ⟨1, 7, 0⟩ ∧ Params.Wf ⟨254, 255, 32⟩ ∧ Params.reference.Wf := by decide

theorem witness_reset_Inv : Inv State.reset := inv_of (by decide)

theorem witness_WellFormedWordsAreTheCommands :
    opNumber 0x00008000#32 ≤ 8 ∧ WordWellFormed 0x00008000#32 ∧ opNumber 0x00008001#32 ≤ 8 ∧
      ¬ WordWellFormed 0x00008001#32 := by unfold WordWellFormed; decide

theorem witness_IllegalWordsRaise :
    (State.reset.phase ≠ .err ∧ 9 ≤ opNumber 0x00009000#32) ∧
    (State.reset.phase ≠ .err ∧ opNumber 0x00008001#32 ≤ 8 ∧ ¬ WordWellFormed 0x00008001#32) ∧
    (failed.phase = .err ∧ (0x00001001#32 : Word) ≠ 0x00001000#32) := by unfold WordWellFormed; decide

theorem witness_ExecuteFollowsDispatchOrder :
    Instr.WellFormed .clr ∧ failed.phase = .err ∧
    Instr.WellFormed .sep ∧ State.reset.phase ∉ legalPhases (Instr.op .sep) State.reset.route ∧
    Instr.WellFormed (.cfg 7#3) ∧ State.reset.phase ∈ legalPhases (Instr.op (.cfg 7#3)) State.reset.route := by decide

theorem witness_LegalTableDecidesSequence :
    Inv State.reset ∧ State.reset.phase ≠ .err ∧ Instr.WellFormed .sep ∧
      State.reset.phase ∉ legalPhases (Instr.op .sep) State.reset.route ∧ Instr.WellFormed (.hrp 0#8) ∧
      State.reset.phase ∈ legalPhases (Instr.op (.hrp 0#8)) State.reset.route := ⟨witness_reset_Inv, by decide⟩

theorem witness_LegalTableDecidesSequence_phases :
    (Inv dataA ∧ dataA.phase = .data) ∧ (Inv (at_ 5#3 .conv) ∧ (at_ 5#3 .conv).phase = .conv) :=
  ⟨⟨inv_of (by decide), by decide⟩, inv_of (by decide), by decide⟩

theorem witness_RaiseHasNoOtherEffect :
    dataA.phase ≠ .err ∧ ∃ t, execute 0x00009000#32 dataA = .next t ∧ t.phase = .err :=
  ⟨by decide, raise .illegalOpcode dataA, next_of_after (by decide), rfl⟩

theorem witness_ErrorPhaseIgnoresAllButClr :
    Inv failed ∧ failed.phase = .err ∧ (0x00001001#32 : Word) ≠ 0x00001000#32 := ⟨inv_of (by decide), by decide⟩

/-- A reset, a CMD write of CLR at the last byte of CMD, and a step that stays in ERR. -/
theorem witness_OnlyClrOrResetLeavesError :
    (Inv (asked [.reset] failed) ∧ step (asked [.reset] failed) = .next (doReset failed) ∧
      (doReset failed).phase ≠ .err) ∧
    (Inv (asked [.write 35 4 0x00001000#32] failed) ∧
      step (asked [.write 35 4 0x00001000#32] failed) = .next (doClr failed) ∧ (doClr failed).phase ≠ .err) ∧
    (Inv (asked [.write 32 4 0x00001001#32] failed) ∧
      step (asked [.write 32 4 0x00001001#32] failed) = .next failed ∧ failed.phase = .err) :=
  ⟨⟨inv_of (by decide), next_of_after (by decide), by decide⟩,
   ⟨inv_of (by decide), next_of_after (by decide), by decide⟩,
   inv_of (by decide), next_of_after (by decide), by decide⟩

theorem witness_StatusPacksItsFields : Inv (buffered 0xff#12 4#4 fullData) := inv_of (by decide)

theorem witness_OutReadPopsTheHead : dataA.fifo = 0x61#8 :: [0x31#8] ∧ State.reset.fifo = [] := by decide

/-- The first and the last offset of each register. -/
theorem witness_BusPrimitivesByOffset :
    ∀ k < 8, 4 * k < 32 ∧ 4 * k &&& 0x1C = 4 * k ∧ 4 * k + 3 < 32 ∧ (4 * k + 3) &&& 0x1C = 4 * k := by decide

theorem witness_LowAddressBitsIgnoredOtherSizesRefused : 31 < 32 ∧ 3 ≠ 4 ∧ 5 ≠ 4 := by decide

theorem witness_OutsideTheWindowNothingHappens :
    31 < (at_ 1#3 .idle).params.base ∧ (at_ 1#3 .idle).params.base + 32 ≤ 64 := by decide

theorem witness_OnlyCommandsOutReadsAndResetChangeTheBlock :
    step (asked [.read 47 4] dataA) = .next (busRead .out dataA) ∧
    busRead .out dataA ≠ { asked [.read 47 4] dataA with
      pending := (busRead .out dataA).pending, readBack := (busRead .out dataA).readBack } :=
  ⟨next_of_after (by decide), by decide⟩

theorem witness_StepRunsTheDecodedCommand :
    (asked [.write 35 4 0x00000000#32] prefixA).pending = .write 35 4 0x00000000#32 :: [] ∧
    (asked [.write 35 4 0x00000000#32] prefixA).params.base ≤ 35 ∧
    35 < (asked [.write 35 4 0x00000000#32] prefixA).params.base + 4 ∧ decode 0x00000000#32 = .ok .nop ∧
    prefixA.pending = [] := by decide

theorem witness_FetchWordRunsNext : Instr.WellFormed (.cfg 7#3) := by decide

theorem witness_CommandWritesRunInOrder :
    (∀ i ∈ [Instr.hrp 0x61#8, .sep], i.WellFormed) ∧
    (asked [.write 32 4 0x00003061#32, .write 32 4 0x00004000#32, .reset] prefixA).pending =
      [Instr.hrp 0x61#8, .sep].map (fun i => cmdWrite prefixA.params (encode i)) ++ [.reset] :=
  ⟨by simp [Instr.WellFormed], by decide⟩

theorem witness_NopDoesNothing :
    opNumber 0x00000001#32 = 0 ∧ (0x00000001#32 : Word) ≠ 0#32 ∧ State.reset.phase ≠ .err := by decide

theorem witness_ClrOpensANewSession :
    opNumber 0x00001001#32 = 1 ∧ (0x00001001#32 : Word) ≠ 0x00001000#32 := by decide

theorem witness_CfgSetsTheConfiguration :
    (CfgLegal 0#3 ∧ CfgLegal 1#3 ∧ CfgLegal 4#3 ∧ CfgLegal 7#3 ∧ State.reset.phase = .idle) ∧
    (opNumber 0x00002002#32 = 2 ∧ (0x00002002#32 : Word).toNat % 8 = 2) ∧
    (opNumber 0x00002003#32 = 2 ∧ (0x00002003#32 : Word).toNat % 8 = 3) ∧
    (opNumber 0x00002008#32 = 2 ∧ (0x00002008#32 : Word).toNat % 256 / 8 ≠ 0) ∧
    prefixA.phase ≠ .idle ∧ prefixA.phase ≠ .err := by decide

/-- The first and the last character the small buffer takes, the largest legal code. -/
theorem witness_HrpAppendsACharacter :
    (Inv (at_ 1#3 .idle) ∧ (at_ 1#3 .idle).route = .enc ∧ (at_ 1#3 .idle).phase = .idle ∧
      (at_ 1#3 .idle).hrpLen.toNat ≠ small.hrpMax) ∧
    (Inv prefixA ∧ prefixA.route = .enc ∧ prefixA.phase = .hrp ∧ prefixA.hrpLen.toNat ≠ small.hrpMax) ∧
    (0x7f#8 : Byte).toNat < 0x80 :=
  ⟨⟨inv_of (by decide), by decide⟩, ⟨inv_of (by decide), by decide⟩, by decide⟩

theorem witness_HrpTraps :
    (prefixA.route = .enc ∧ prefixA.phase = .hrp ∧ 0x80 ≤ (0x80#8 : Byte).toNat) ∧
    ({ prefixA with hrpLen := 2#8 } : State).hrpLen.toNat = prefixA.params.hrpMax ∧ (0x7f#8 : Byte).toNat < 0x80 := by
  decide

theorem witness_SepClosesThePrefix :
    (prefixA.route = .enc ∧ prefixA.phase = .hrp ∧
      prefixA.fifo.length + (prefixA.hrpChars.length + 1) ≤ prefixA.params.outDepth) ∧
    (let s := holding (List.replicate 6 0#8) prefixA
     s.params.outDepth < s.fifo.length + (s.hrpChars.length + 1)) := by decide

theorem witness_FinPushesTheChecksum :
    (Inv roomyData ∧ roomyData.route = .enc ∧ roomyData.phase = .data ∧ roomyData.pad = true ∧
      roomyData.fifo.length + 6 ≤ roomyData.params.outDepth) ∧
    (let s := buffered 0xff#12 4#4 roomyData
     Inv s ∧ s.pad = true ∧ 0 < s.cnt.toNat ∧ s.fifo.length + (1 + 6) ≤ s.params.outDepth) ∧
    (let s := buffered 0xf0#12 4#4 { roomyData with cfg := 0#3 }
     Inv s ∧ s.pad = false ∧ s.acc.toNat % 2 ^ s.cnt.toNat = 0) :=
  ⟨⟨inv_of (by decide), by decide⟩, ⟨inv_of (by decide), by decide⟩, inv_of (by decide), by decide⟩

theorem witness_FinTraps :
    (let s := buffered 1#12 3#4 { dataA with cfg := 0#3 }
     Inv s ∧ s.route = .enc ∧ s.phase = .data ∧ s.pad = false ∧ s.acc.toNat % 2 ^ s.cnt.toNat ≠ 0) ∧
    (Inv dataA ∧ dataA.pad = true ∧
      dataA.params.outDepth < dataA.fifo.length + (if dataA.pad = true ∧ 0 < dataA.cnt.toNat then 7 else 6)) :=
  ⟨⟨inv_of (by decide), by decide⟩, inv_of (by decide), by decide⟩

theorem witness_ChecksumFedBackLeavesOne :
    (Inv roomyData ∧ roomyData.route = .enc ∧ roomyData.phase = .data) ∧
    roomyData.chk = polymodFrom 1#30 (hrpExpand [0x61#7] ++ []) ∧
    roomyData.fifo.length + 6 ≤ roomyData.params.outDepth := ⟨⟨inv_of (by decide), by decide⟩, by decide⟩

/-- ENC, RAW 8-to-5 from IDLE, RAW 5-to-8 with the largest value that fits. -/
theorem witness_DinConvertsAndEmits :
    (let s := buffered 0xf#12 4#4 dataA
     Inv s ∧ s.phase ∈ legalPhases .din s.route ∧ s.fifo.length + 12 / 5 ≤ s.params.outDepth) ∧
    (Inv (at_ 5#3 .idle) ∧ (at_ 5#3 .idle).phase ∈ legalPhases .din (at_ 5#3 .idle).route ∧
      (0xff#8 : Byte).toNat < 2 ^ fromBits (at_ 5#3 .idle).dir) ∧
    (let s := buffered 0x7f#12 7#4 (at_ 6#3 .conv)
     Inv s ∧ s.phase ∈ legalPhases .din s.route ∧ (31#8 : Byte).toNat < 2 ^ fromBits s.dir ∧
      s.fifo.length + (s.cnt.toNat + fromBits s.dir) / toBits s.dir ≤ s.params.outDepth) :=
  ⟨⟨inv_of (by decide), by decide⟩, ⟨inv_of (by decide), by decide⟩, inv_of (by decide), by decide⟩

theorem witness_DinTraps :
    (Inv (at_ 6#3 .conv) ∧ (at_ 6#3 .conv).phase ∈ legalPhases .din (at_ 6#3 .conv).route ∧
      (at_ 6#3 .conv).dir = .fiveToEight ∧ 32 ≤ (32#8 : Byte).toNat) ∧
    (Inv (fullRaw 5#3) ∧ (fullRaw 5#3).phase ∈ legalPhases .din (fullRaw 5#3).route ∧
      (fullRaw 5#3).params.outDepth <
        (fullRaw 5#3).fifo.length + ((fullRaw 5#3).cnt.toNat + fromBits (fullRaw 5#3).dir) / toBits (fullRaw 5#3).dir) :=
  ⟨⟨inv_of (by decide), by decide⟩, inv_of (by decide), by decide⟩

theorem witness_FlushEndsTheInput :
    (let s := buffered 0xff#12 3#4 (at_ 5#3 .conv)
     Inv s ∧ s.phase ∈ legalPhases .flush s.route ∧ s.pad = true ∧ s.fifo.length + 1 ≤ s.params.outDepth) ∧
    (let s := buffered 0x3f0#12 4#4 (at_ 6#3 .conv)
     Inv s ∧ s.phase ∈ legalPhases .flush s.route ∧ s.pad = false ∧ s.cnt.toNat < fromBits s.dir ∧
      s.acc.toNat % 2 ^ s.cnt.toNat = 0) ∧
    (Inv dataA ∧ dataA.phase ∈ legalPhases .flush dataA.route) :=
  ⟨⟨inv_of (by decide), by decide⟩, ⟨inv_of (by decide), by decide⟩, inv_of (by decide), by decide⟩

/-- `cnt = from`, a remainder that is not zero, and a full FIFO. -/
theorem witness_FlushTraps :
    (let s := buffered 0#12 5#4 (at_ 6#3 .conv)
     Inv s ∧ s.phase ∈ legalPhases .flush s.route ∧ s.pad = false ∧ fromBits s.dir ≤ s.cnt.toNat) ∧
    (let s := buffered 1#12 4#4 (at_ 6#3 .conv)
     Inv s ∧ s.pad = false ∧ s.acc.toNat % 2 ^ s.cnt.toNat ≠ 0) ∧
    (let s := buffered 1#12 3#4 (fullRaw 5#3)
     Inv s ∧ s.phase ∈ legalPhases .flush s.route ∧ s.pad = true ∧ 0 < s.cnt.toNat ∧
      s.fifo.length = s.params.outDepth) :=
  ⟨⟨inv_of (by decide), by decide⟩, ⟨inv_of (by decide), by decide⟩, inv_of (by decide), by decide⟩

theorem witness_FlushOfNoInputIsEmpty :
    Inv (at_ 4#3 .idle) ∧ (at_ 4#3 .idle).phase ∈ legalPhases .flush (at_ 4#3 .idle).route ∧
      (at_ 4#3 .idle).cnt = 0#4 := ⟨inv_of (by decide), by decide⟩

theorem witness_ChunkCountsPerCommand :
    (Inv (at_ 5#3 .idle) ∧ ∃ t, exec (.din 0xff#8) (at_ 5#3 .idle) = .next t ∧ t.phase ≠ .err ∧
      (at_ 5#3 .idle).dir = .eightToFive) ∧
    (Inv (at_ 6#3 .idle) ∧ ∃ t, exec (.din 31#8) (at_ 6#3 .idle) = .next t ∧ t.phase ≠ .err ∧
      (at_ 6#3 .idle).dir = .fiveToEight) ∧
    ∃ t, exec .flush (at_ 6#3 .idle) = .next t ∧ t.phase ≠ .err :=
  ⟨⟨inv_of (by decide), _, rfl, by decide⟩, ⟨inv_of (by decide), _, rfl, by decide⟩, _, rfl, by decide⟩

/-- One byte with padding, and one symbol without (where `convert` has no result). -/
theorem witness_DinsThenFlushIsConvert :
    (let s := at_ 5#3 .idle
     Inv s ∧ s.phase ∈ legalPhases .din s.route ∧ s.cnt = 0#4 ∧
      (∀ v ∈ [(0xff#8 : Byte)], v.toNat < 2 ^ fromBits s.dir) ∧
      s.fifo.length + (1 * fromBits s.dir + toBits s.dir - 1) / toBits s.dir ≤ s.params.outDepth) ∧
    (let s := at_ 6#3 .idle
     Inv s ∧ s.phase ∈ legalPhases .din s.route ∧ (∀ v ∈ [(31#8 : Byte)], v.toNat < 2 ^ fromBits s.dir) ∧
      convert (fromBits s.dir) (toBits s.dir) s.pad [31] = none) :=
  ⟨⟨inv_of (by decide), by decide⟩, inv_of (by decide), by decide⟩

theorem witness_RoundTripRecoversTheBytes :
    Inv dataA ∧ (8 * [(0xff#8 : Byte), 0x01#8, 0x80#8, 0x00#8].length + 4) / 5 ≤ dataA.params.outDepth :=
  ⟨inv_of (by decide), by decide⟩

theorem witness_MapIsTheAlphabet : mapSymbol 31#5 = mapSymbol 31#5 := rfl

theorem witness_SymDeliversOneSymbol :
    (dataA.route = .enc ∧ dataA.phase = .data ∧ dataA.fifo.length < dataA.params.outDepth) ∧
    (fullData.route = .enc ∧ fullData.phase = .data ∧ fullData.params.outDepth ≤ fullData.fifo.length) := by decide

/-- A session with a NOP in it, on the reference instance. -/
theorem witness_EncSessionYieldsTheSourceAddress :
    Inv State.reset ∧ State.reset.phase = .idle ∧ Instr.clr ∉ [Instr.hrp 0x61#8, .nop, .sep, .fin] ∧
    ∃ t, execAll [.hrp 0x61#8, .nop, .sep, .fin] State.reset = .next t ∧ t.phase = .done ∧ t.route = .enc :=
  ⟨witness_reset_Inv, by decide, by decide, _, rfl, by decide⟩

/-- The tightest case: the room is exactly what the address takes. -/
theorem witness_EncodeSequenceSucceeds :
    (let s := State.resetWith ⟨1, 12, 0⟩
     Inv s ∧ s.phase = .idle ∧ s.cfg = 0b001#3 ∧ 1 ≤ [(0x61#7 : HrpChar)].length ∧
      [(0x61#7 : HrpChar)].length ≤ s.params.hrpMax ∧
      [(0x61#7 : HrpChar)].length + 1 + (8 * [(0xff#8 : Byte), 0x5a#8].length + 4) / 5 + 6 ≤ s.params.outDepth) :=
  ⟨inv_of (by decide), by decide⟩

theorem witness_StepKeepsInv :
    Inv (asked [.write 32 4 0x00004000#32] prefixA) ∧
    ∃ t, step (asked [.write 32 4 0x00004000#32] prefixA) = .next t := ⟨inv_of (by decide), _, rfl⟩

theorem witness_InvHoldsBetweenAnyTwoAccesses :
    Params.reference.Wf ∧
    ∃ t, Host.Core.run Sys2Proof.core 1
      { State.resetWith Params.reference with pending := [.read 0x04 4] } = .next t := ⟨by decide, _, rfl⟩

/-- Two states that differ in the hidden character. -/
theorem witness_HiddenCharactersNeverShow :
    SameVisible (asked [.write 32 4 0x00003062#32] prefixA)
      { asked [.write 32 4 0x00003062#32] prefixA with hrpBuf := [0x61#7, 0x7f#7] } ∧
    ∃ t, step (asked [.write 32 4 0x00003062#32] prefixA) = .next t :=
  ⟨⟨by decide, by decide, by decide⟩, _, rfl⟩

theorem witness_CommandsWriteOnlyTheirFields : ∃ t, exec .sep prefixA = .next t := ⟨_, rfl⟩

theorem witness_FifoKeepsPushOrder :
    ∃ t, exec .sep prefixA = .next t ∧ Instr.sep ≠ .clr ∧ t.phase ≠ .err := ⟨_, rfl, by decide, by decide⟩

/-- Exactly the room, and an empty FIFO. -/
theorem witness_RoomForTheTableNeverOverflows :
    (Inv roomyData ∧ roomyData.phase ≠ .err ∧ (∃ t, exec .fin roomyData = .next t) ∧
      roomyData.fifo.length + maxItems .fin roomyData ≤ roomyData.params.outDepth ∧ roomyData.fifo = []) ∧
    (Inv dataA ∧ dataA.fifo.length + maxItems (.din 0#8) dataA ≤ dataA.params.outDepth) :=
  ⟨⟨inv_of (by decide), by decide, ⟨_, rfl⟩, by decide⟩, inv_of (by decide), by decide⟩

theorem witness_FinishedResultIsStable :
    Inv (at_ 5#3 .done) ∧ ResultValid (at_ 5#3 .done) ∧
    ∃ t, exec .nop (at_ 5#3 .done) = .next t ∧ ResultValid t :=
  ⟨inv_of (by decide), ⟨by decide, by decide⟩, _, rfl, by decide, by decide⟩

theorem witness_AssembledLinesRunTheirCommand :
    lineCommand (.hrp 255) = some (.hrp 0xff#8) ∧ lineCommand (.sym 31) = some (.sym 31#5) ∧ 256 ≤ 256 ∧ 32 ≤ 32 := by
  decide

end Sys2Proof.Tests
end

section
/-! Proofs of the statements about the architectural state (10_state.md): the registers as views of the state
(R31 to R36), and the invariant of R38, kept by every operation, by every step and so along every run. -/

namespace Sys2Proof.Machine

/-! ### Registers: reads without a side effect, writes without an effect -/

/-- Only a read of OUT has a side effect (R44). -/
theorem busRead_of_ne_out {r : Reg} (h : r ≠ .out) (s : State) :
    busRead r s = { s with readBack := s.readBack ++ [regValue r s] } := by
  simp only [busRead, if_neg h]

theorem busRead_out (s : State) :
    busRead .out s = { s with fifo := s.fifo.tail, readBack := s.readBack ++ [regValue .out s] } := rfl

/-- Only a write of CMD has an effect (R46). -/
theorem busWrite_of_ne_cmd {r : Reg} (h : r ≠ .cmd) (v : Word) (s : State) : busWrite r v s = .next s := by
  cases r with
  | cmd => exact absurd rfl h
  | _ => rfl

/-- Two fields side by side, as a number. -/
theorem toNat_append_eq_add {m n : Nat} (x : BitVec m) (y : BitVec n) :
    (x ++ y).toNat = x.toNat * 2 ^ n + y.toNat := by
  rw [BitVec.toNat_append, ← Nat.shiftLeft_add_eq_or_of_lt y.isLt, Nat.shiftLeft_eq]

/-- OUT with an item at the head: VALID is bit 8 (R33). -/
theorem outWord_eq (x : Byte) : outWord x = BitVec.ofNat 32 (2 ^ 8 + x.toNat) := by
  apply BitVec.eq_of_toNat_eq
  rw [outWord, BitVec.toNat_setWidth, toNat_append_eq_add]
  simp

/-- STATUS as a number, of a FIFO whose length fits its field (R31). -/
theorem statusWord_toNat {s : State} (h : s.fifo.length < 2 ^ 8) :
    (statusWord s).toNat =
      (phaseBits s.phase).toNat + 2 ^ 4 * (errBits s.err).toNat + 2 ^ 8 * s.fifo.length +
        2 ^ 16 * s.hrpLen.toNat + 2 ^ 24 * s.cnt.toNat := by
  simp only [statusWord, toNat_append_eq_add, BitVec.toNat_ofNat, Nat.mod_eq_of_lt h]
  omega

/-! ### The invariant, operation by operation (R38) -/

theorem Inv.fifo_length_lt {s : State} (hI : Inv s) : s.fifo.length < 2 ^ 8 := by
  obtain ⟨-, -, -, hdepth, -⟩ := hI.params
  have := hI.fifo_le
  omega

theorem Inv.err_of_phase {s : State} (hI : Inv s) (hp : s.phase ≠ .err) : s.err = .noError := hI.err_iff.2 hp

/-- CLR opens an empty session in IDLE (R91): it asks of the old state only the parts that it keeps. -/
theorem inv_doClr {s : State} (hparams : s.params.Wf) (hcfg : CfgLegal s.cfg)
    (hbuf : s.hrpBuf.length = s.params.hrpMax) : Inv (doClr s) := by
  refine ⟨hparams, ?_, ?_, ?_, ?_, ?_, ?_, hcfg, ?_, hbuf, ?_, ?_, ?_, ?_, ?_⟩ <;> simp [toBits_pos]

theorem Inv.doClr {s : State} (hI : Inv s) : Inv (doClr s) := inv_doClr hI.params hI.cfg_legal hI.buf_len

/-- The configuration after reset is legal (R24, R106). -/
theorem cfgLegal_reset : CfgLegal 0b001#3 := by decide

theorem Inv.doReset {s : State} (hI : Inv s) : Inv (doReset s) :=
  inv_doClr (s := { s with cfg := 0b001#3 }) hI.params cfgLegal_reset hI.buf_len

/-- The state after reset is a cleared one (R105, R106). -/
theorem Inv.resetWith {p : Params} (hp : p.Wf) : Inv (State.resetWith p) :=
  inv_doClr (s := State.resetWith p) hp cfgLegal_reset List.length_replicate

/-- Error entry (R94): what it keeps met the invariant before, and ERR is none of the phases that ask more. -/
theorem Inv.raise {s : State} {e : ErrCode} (hI : Inv s) (he : e ≠ .noError) : Inv (raise e s) :=
  { hI with
    err_iff := by simp [he]
    err_fifo := fun _ => rfl
    cnt_zero := by simp
    hrp_zero := fun h => hI.hrp_zero (.inl (by simpa using h))
    chk_one := fun h => hI.chk_one (.inr (.inr (by simpa using h)))
    fifo_le := by simp
    enc_phase := by simp
    raw_phase := by simp
    empty := by simp
    done_enc := by simp }

theorem Inv.popOut {s : State} (hI : Inv s) : Inv (popOut s) :=
  { hI with
    err_fifo := fun h => by simp [hI.err_fifo h]
    fifo_le := by have := hI.fifo_le; simp; omega
    empty := fun h => by simpa using ⟨by simp [(hI.empty h).1], (hI.empty h).2⟩ }

theorem Inv.busRead {s : State} (hI : Inv s) (r : Reg) : Inv (busRead r s) := by
  by_cases h : r = .out
  · subst h; exact hI.popOut.withHost s.pending (s.readBack ++ [regValue .out s])
  · rw [busRead_of_ne_out h]; exact hI.withHost s.pending _

/-! ### Where each command is legal (R63) -/

theorem legal_hrp {r : Route} {p : Phase} (h : p ∈ legalPhases .hrp r) : r = .enc ∧ (p = .idle ∨ p = .hrp) := by
  cases r <;> simp_all [legalPhases]

theorem legal_sep {r : Route} {p : Phase} (h : p ∈ legalPhases .sep r) : p = .hrp := by
  cases r <;> simp_all [legalPhases]

theorem legal_sym {r : Route} {p : Phase} (h : p ∈ legalPhases .sym r) : p = .data := by
  cases r <;> simp_all [legalPhases]

theorem legal_fin {r : Route} {p : Phase} (h : p ∈ legalPhases .fin r) : p = .data := by
  cases r <;> simp_all [legalPhases]

/-- DIN and FLUSH share a row of the table: DATA on the ENC route, and never in DONE. -/
theorem legal_din {r : Route} {p : Phase} (h : p ∈ legalPhases .din r) : (r = .enc → p = .data) ∧ p ≠ .done := by
  cases r with
  | enc =>
    obtain rfl : p = .data := by simpa [legalPhases] using h
    simp
  | raw =>
    obtain rfl | rfl : p = .idle ∨ p = .conv := by simpa [legalPhases] using h
    all_goals simp

theorem legal_flush {r : Route} {p : Phase} (h : p ∈ legalPhases .flush r) : r = .enc → p = .data := by
  cases r <;> simp_all [legalPhases]

/-! ### The invariant, command by command -/

/-- CFG in IDLE (R92): nothing is buffered, held or delivered that the new configuration could contradict. -/
theorem Inv.setCfg {s : State} (hI : Inv s) (hp : s.phase = .idle) {c : BitVec 3} (hc : CfgLegal c) :
    Inv { s with cfg := c } :=
  { hI with
    cnt_lt := by rw [hI.cnt_zero (.inl hp)]; exact toBits_pos _
    hrp_zero := fun _ => hI.hrp_zero (.inr hp)
    chk_one := fun _ => hI.chk_one (.inl hp)
    cfg_legal := hc
    enc_phase := by simp [hp]
    raw_phase := by simp [hp]
    done_enc := by simp [hp] }

/-- HRP where it is legal (R77): one more character, within the buffer. -/
theorem Inv.appendHrp {s : State} (hI : Inv s) (hl : s.phase ∈ legalPhases .hrp s.route)
    (hlen : s.hrpLen.toNat ≠ s.params.hrpMax) (c : HrpChar) :
    Inv { s with hrpBuf := s.hrpBuf.set s.hrpLen.toNat c, hrpLen := s.hrpLen + 1#8, phase := .hrp } := by
  obtain ⟨hr, hp⟩ := legal_hrp hl
  have herr := hI.err_of_phase (legalPhases_ne_err hl)
  have hlt : s.hrpLen.toNat < s.params.hrpMax := lt_of_le_of_ne hI.hrp_le hlen
  have hsucc : (s.hrpLen + 1#8).toNat = s.hrpLen.toNat + 1 := by
    obtain ⟨-, hmax, -⟩ := hI.params
    simp; omega
  exact { hI with
    err_iff := by simpa using herr
    err_fifo := by simp
    cnt_zero := fun _ => hI.cnt_zero (hp.imp_right .inl)
    hrp_zero := fun h => by
      rcases h with hraw | hidle
      · exact nomatch hr.symm.trans hraw
      · simp at hidle
    chk_one := fun _ => hI.chk_one (hp.imp_right .inl)
    hrp_le := hsucc.trans_le hlt
    buf_len := by simp [hI.buf_len]
    enc_phase := fun _ => ⟨hr, by simp only [hsucc]; omega⟩
    raw_phase := by simp
    empty := fun _ => hI.empty hp
    done_enc := by simp }

/-- What a session that has delivered something may hold as its phase `p` and checksum `k`, given the route and the
characters held of `s` (R27, R38(e)): a character held on the ENC route, the checksum's start on the RAW route. -/
structure Delivering (s : State) (p : Phase) (k : Chk) : Prop where
  not_idle : p ≠ .idle
  not_hrp : p ≠ .hrp
  not_err : p ≠ .err
  enc_of_data : p = .data → s.route = .enc
  raw_of_conv : p = .conv → s.route = .raw
  hrp_held : s.route = .enc → 0 < s.hrpLen.toNat
  chk_one : s.route = .raw → k = 1#30

theorem delivering_enc {s : State} (hr : s.route = .enc) (hlen : 0 < s.hrpLen.toNat) {p : Phase}
    (hp : p = .data ∨ p = .done) (k : Chk) : Delivering s p k := by
  rcases hp with rfl | rfl <;> constructor <;> simp [hr, hlen]

theorem delivering_raw {s : State} (hr : s.route = .raw) {p : Phase} (hp : p = .conv ∨ p = .done) :
    Delivering s p 1#30 := by
  rcases hp with rfl | rfl <;> constructor <;> simp [hr]

/-- The commands that output (SEP, DIN, SYM, FLUSH, FIN) write at most `acc`, `cnt`, `chk`, `phase` and `fifo`. -/
theorem Inv.output {s : State} {p : Phase} {a : BitVec 12} {n : BitVec 4} {k : Chk} {f : List Byte} (hI : Inv s)
    (hp : s.phase ≠ .err) (hd : Delivering s p k) (hn : n.toNat < toBits s.dir) (hdone : p = .done → n = 0#4)
    (hf : f.length ≤ s.params.outDepth) :
    Inv { s with acc := a, cnt := n, chk := k, phase := p, fifo := f } :=
  { hI with
    err_iff := iff_of_true (hI.err_of_phase hp) hd.not_err
    err_fifo := fun h => absurd h hd.not_err
    cnt_lt := hn
    cnt_zero := fun h => hdone ((h.resolve_left hd.not_idle).resolve_left hd.not_hrp)
    hrp_zero := fun h => hI.hrp_zero (.inl (h.resolve_right hd.not_idle))
    chk_one := fun h => hd.chk_one ((h.resolve_left hd.not_idle).resolve_left hd.not_hrp)
    fifo_le := hf
    enc_phase := fun h =>
      have hr := hd.enc_of_data (h.resolve_left hd.not_hrp)
      ⟨hr, hd.hrp_held hr⟩
    raw_phase := hd.raw_of_conv
    empty := fun h => absurd (h.resolve_left hd.not_idle) hd.not_hrp
    done_enc := fun _ => hd.hrp_held }

theorem Inv.delivering_of_data {s : State} (hI : Inv s) (hdata : s.phase = .data) {p : Phase}
    (hp : p = .data ∨ p = .done) (k : Chk) : Delivering s p k := by
  obtain ⟨hr, hlen⟩ := hI.enc_phase (.inr hdata)
  exact delivering_enc hr hlen hp k

/-- DIN and FLUSH stay in DATA on the ENC route, and leave `chk` alone on the RAW route (R67 to R69). -/
theorem Inv.delivering_rawPhase {s : State} (hI : Inv s) (hl : s.route = .enc → s.phase = .data) (cs : List Nat)
    {p : Phase} (hp : p = .conv ∨ p = .done) :
    Delivering s (rawPhase s.route p s.phase) (chkAfter s.route s.chk cs) := by
  cases hr : s.route with
  | enc => exact hI.delivering_of_data (hl hr) (.inl (hl hr)) _
  | raw =>
    have hchk : chkAfter .raw s.chk cs = 1#30 := hI.chk_one (.inr (.inr hr))
    rw [hchk]
    exact delivering_raw hr hp

/-- DIN leaves fewer bits than a chunk takes (R18, R65). -/
theorem Inv.din_cnt_lt {s : State} (hI : Inv s) {v : Nat} (hv : v < 2 ^ fromBits s.dir) :
    (BitVec.ofNat 4 (convPush s.acc.toNat s.cnt.toNat v (fromBits s.dir) (toBits s.dir)).cnt).toNat <
      toBits s.dir := by
  have hn : s.cnt.toNat + fromBits s.dir ≤ 12 := by
    have := hI.cnt_lt
    cases hd : s.dir <;> simp only [hd, fromBits, toBits] at * <;> omega
  rw [(convPush_chunks hv (toBits_pos s.dir) hn).2, cnt_toNat]
  exact Nat.mod_lt _ (toBits_pos _)

/-- A command that is legal and raises no error keeps the invariant. -/
theorem Inv.ruleOf {i : Instr} {s t : State} (hI : Inv s) (hw : i.WellFormed)
    (hl : s.phase ∈ legalPhases i.op s.route) (h : ruleOf i s = .ok t) : Inv t := by
  have hp : s.phase ≠ .err := legalPhases_ne_err hl
  have hzero : (0#4).toNat < toBits s.dir := toBits_pos _
  cases i with
  | nop => cases h; exact hI
  | clr => cases h; exact hI.doClr
  | cfg c => cases h; exact hI.setCfg (by simpa [Instr.op, legalPhases] using hl) hw
  | hrp v =>
    obtain ⟨-, hlen, rfl⟩ := hrpRule_ok h
    exact hI.appendHrp hl hlen _
  | sep =>
    obtain ⟨hroom, rfl⟩ := sepRule_ok h
    obtain ⟨hr, hlen⟩ := hI.enc_phase (.inl (legal_sep hl))
    exact hI.output hp (delivering_enc hr hlen (.inl rfl) _) hI.cnt_lt (by simp) (by simpa using hroom)
  | din v =>
    obtain ⟨hv, hroom, rfl⟩ := dinRule_ok h
    obtain ⟨hdata, hdone⟩ := legal_din hl
    refine hI.output hp (hI.delivering_rawPhase hdata _ (.inl rfl)) (hI.din_cnt_lt hv) (fun hc => ?_)
      (by simpa using hroom)
    rw [rawPhase_eq] at hc
    split at hc <;> contradiction
  | sym x =>
    obtain ⟨hroom, rfl⟩ := symRule_ok h
    have hdata := legal_sym hl
    exact hI.output hp (hI.delivering_of_data hdata (.inl hdata) _) hI.cnt_lt (by simp [hdata]) (by simpa using hroom)
  | flush =>
    obtain ⟨cs, -, hroom, rfl⟩ := flushRule_ok h
    exact hI.output hp (hI.delivering_rawPhase (legal_flush hl) cs (.inr rfl)) hzero (fun _ => rfl)
      (by simpa using hroom)
  | fin =>
    obtain ⟨cs, -, hroom, rfl⟩ := finRule_ok h
    exact hI.output hp (hI.delivering_of_data (legal_fin hl) (.inr rfl) _) hzero (fun _ => rfl)
      (by simpa [checksumSymbols] using hroom)

/-- Every command keeps the invariant, legal or not. -/
theorem Inv.exec {i : Instr} {s t : State} (hI : Inv s) (h : exec i s = .next t) : Inv t := by
  rcases exec_cases h with ⟨-, rfl⟩ | ⟨-, -, rfl⟩ | ⟨-, -, -, rfl⟩ | ⟨-, -, -, -, rfl⟩ | ⟨-, hl, hw, hok | ⟨e, he, rfl⟩⟩
  · exact hI.doClr
  · exact hI
  · exact hI.raise (by decide)
  · exact hI.raise (by decide)
  · exact hI.ruleOf hw hl hok
  · exact hI.raise (by rintro rfl; simpa using ruleOf_error he)

/-! ### The invariant along a run -/

/-- Every word written to CMD keeps the invariant, a command or not. -/
theorem Inv.execute {w : Word} {s t : State} (hI : Inv s) (h : execute w s = .next t) : Inv t := by
  unfold Machine.execute at h
  split at h
  · exact hI.exec h
  · rename_i e _
    cases h
    unfold rejectWord
    split
    · exact hI
    · exact hI.raise (by cases e <;> decide)

/-- Every host access keeps the invariant. -/
theorem Inv.hostAccess {a : Access} {s t : State} (hI : Inv s) (h : hostAccess a s = .next t) : Inv t := by
  rcases hostAccess_cases h with ⟨-, rfl⟩ | ⟨-, r, -, -, rfl⟩ | ⟨-, w, -, -, -, hw⟩ | rfl
  · exact hI.doReset
  · exact hI.busRead r
  · exact hI.execute hw
  · exact hI

/-- Every step keeps the invariant. -/
theorem Inv.step {s t : State} (hI : Inv s) (h : step s = .next t) : Inv t := by
  unfold Machine.step serveNext at h
  split at h
  · cases h; exact hI
  · rename_i a rest _
    exact (hI.withHost rest s.readBack).hostAccess h

theorem run_succ_next {M : Host.Core} {n : Nat} {s t : M.State} (h : M.run (n + 1) s = .next t) :
    ∃ u, M.step s = .next u ∧ M.run n u = .next t := by
  unfold Host.Core.run at h
  split at h
  · rename_i u hu; exact ⟨u, hu, h⟩
  · cases h
  · cases h

/-- What every step keeps, every run keeps. -/
theorem run_keeps {M : Host.Core} {P : M.State → Prop} (hstep : ∀ s t, P s → M.step s = .next t → P t) {n : Nat}
    {s t : M.State} (hs : P s) (h : M.run n s = .next t) : P t := by
  induction n generalizing s with
  | zero => cases h; exact hs
  | succ n ih =>
    obtain ⟨u, hu, hrun⟩ := run_succ_next h
    exact ih (hstep s u hs hu) hrun

/-! ### The statements -/

/-- Settles O10: STATUS as a number is the fields of R31, since the FIFO's length fits 8 bits. -/
theorem statusPacksItsFields : Obligations.StatusPacksItsFields := by
  refine ⟨fun s hI => ⟨statusWord_toNat hI.fifo_length_lt, busRead_of_ne_out (by decide) s, fun v => ?_⟩, fun p => ?_⟩
  · exact busWrite_of_ne_cmd (by decide) v s
  · exact BitVec.eq_of_toNat_eq (statusWord_toNat (by simp [State.resetWith]))

/-- Settles O46: the invariant holds after reset and every step keeps it. -/
theorem invHoldsBetweenAnyTwoAccesses : Obligations.InvHoldsBetweenAnyTwoAccesses := by
  intro p script n t hp h
  exact run_keeps (M := Sys2Proof.core) (fun _ _ => Inv.step) ((Inv.resetWith hp).withHost script []) h

/-- Settles O11, by the head of the FIFO. -/
theorem outReadPopsTheHead : Obligations.OutReadPopsTheHead := by
  refine ⟨fun s x rest h => ?_, fun s h => ?_, fun s v => busWrite_of_ne_cmd (by decide) v s, fun p => rfl⟩
  · simp only [busRead_out, regValue, h, outWord_eq, List.tail_cons]
  · simp only [busRead_out, regValue, h, List.tail_nil]

/-- Settles O12: none of the four registers is CMD or OUT. -/
theorem chkAccAndReservedAreViews : Obligations.ChkAccAndReservedAreViews := by
  refine ⟨fun s => ⟨?_, ?_, rfl, rfl, fun r hr => ⟨busRead_of_ne_out ?_ s, fun v => busWrite_of_ne_cmd ?_ v s⟩⟩,
    fun p => ⟨rfl, rfl⟩⟩
  · exact BitVec.toNat_setWidth_of_le (by decide)
  · exact BitVec.toNat_setWidth_of_le (by decide)
  · rintro rfl; simp at hr
  · rintro rfl; simp at hr

end Sys2Proof.Machine
end

section
/-! Proof of the statement about the register window (20_memory.md): what each offset returns and does (R46). -/

namespace Sys2Proof.Machine

/-! ### Accesses inside the window -/

/-- `off & 0x1C` is all of an offset that chooses the register (R42). -/
theorem regAt_and_mask {off : Nat} (h : off < 32) : regAt (off &&& 0x1C) = regAt off :=
  (by decide : ∀ off : Fin 32, regAt (off.val &&& 0x1C) = regAt off.val) ⟨off, h⟩

theorem regAt_eq_cmd_iff_mask {off : Nat} (h : off < 32) : regAt off = .cmd ↔ off &&& 0x1C = 0 :=
  (by decide : ∀ off : Fin 32, regAt off.val = .cmd ↔ off.val &&& 0x1C = 0) ⟨off, h⟩

/-- A read inside the window is `BusRead` of the register there (R46). -/
theorem hostAccess_read_inside (s : State) {off : Nat} (h : off < 32) :
    hostAccess (.read (s.params.base + off) 4) s = .next (busRead (regAt off) s) := by
  simp [hostAccess, regOfAddr_inside s.params h]

/-- A write inside the window is `BusWrite` of the register there (R46). -/
theorem hostAccess_write_inside (s : State) {off : Nat} (h : off < 32) (v : Word) :
    hostAccess (.write (s.params.base + off) 4 v) s = busWrite (regAt off) v s := by
  simp [hostAccess, regOfAddr_inside s.params h]

/-- A read of any register but OUT shows its value and changes nothing else (R44). -/
theorem hostAccess_read_of_ne_out (s : State) {off o : Nat} (h : off < 32) (ho : off &&& 0x1C = o)
    (hr : regAt o ≠ .out) :
    hostAccess (.read (s.params.base + off) 4) s =
      .next { s with readBack := s.readBack ++ [regValue (regAt o) s] } := by
  rw [hostAccess_read_inside s h, ← regAt_and_mask h, ho, busRead_of_ne_out hr]

/-- Every word written to CMD ends in a next state, a command or not (R62). -/
theorem execute_next (w : Word) (s : State) : ∃ t, execute w s = .next t := by
  unfold execute
  cases decode w with
  | ok i => exact exec_next i s
  | error e => exact ⟨_, rfl⟩

/-! ### The statement -/

/-- Settles O13: only the read of OUT and the write of CMD have an effect, and a write of CMD always answers. -/
theorem busPrimitivesByOffset : Obligations.BusPrimitivesByOffset := by
  intro s off h
  simp only [BitVec.ofNat_toNat, List.drop_one]
  refine ⟨fun ho => ?cmd, fun ho => ?status, fun ho => ?cfg, fun ho => ?out, fun ho => ?chk, fun ho => ?acc,
    fun ho => ?reserved, fun v => ⟨fun ho => ⟨?execute, execute_next v s⟩, fun ho => ?ignored⟩⟩
  case out => rw [hostAccess_read_inside s h, ← regAt_and_mask h, ho]; rfl
  case reserved => rcases ho with ho | ho <;> exact hostAccess_read_of_ne_out s h ho (by decide)
  case execute => rw [hostAccess_write_inside s h, (regAt_eq_cmd_iff_mask h).2 ho]; rfl
  case ignored =>
    rw [hostAccess_write_inside s h]
    exact busWrite_of_ne_cmd (mt (regAt_eq_cmd_iff_mask h).1 ho) v s
  all_goals exact hostAccess_read_of_ne_out s h ho (by decide)

end Sys2Proof.Machine
end

section
/-! Proofs of the statements about the command words (30_encoding.md): which words are commands (R56), what the others
raise (R57), and where the table of R63 makes a command raise SEQUENCE. -/

namespace Sys2Proof.Machine

/-! ### Operand bytes (R53, R56) -/

theorem formatZ_isSome (b : Byte) (i : Instr) : (formatZ b i).isSome ↔ b.toNat = 0 := by
  simp [formatZ, BitVec.toNat_eq]

theorem formatC_isSome (b : Byte) : (formatC b).isSome ↔ b.toNat / 8 = 0 ∧ b.toNat % 8 ∉ [2, 3] := by
  revert b; decide

theorem formatS_isSome (b : Byte) : (formatS b).isSome ↔ b.toNat / 32 = 0 := by
  revert b; decide

/-- The part of `WellFormed(w)` that speaks of the operand byte, of an opcode and a byte as numbers (R56). -/
def OperandWellFormed (n b : Nat) : Prop :=
  (n ∈ [0, 1, 4, 7, 8] → b = 0) ∧ (n = 2 → b / 8 = 0 ∧ b % 8 ∉ [2, 3]) ∧ (n = 6 → b / 32 = 0)

theorem wordWellFormed_iff (w : Word) :
    WordWellFormed w ↔
      (reservedHigh w = 0#16 ∧ reservedMid w = 0#4) ∧ OperandWellFormed (opNumber w) (imm8 w).toNat := by
  simp only [WordWellFormed, OperandWellFormed, reservedHigh_eq_zero, reservedMid_eq_zero, imm8_toNat, and_assoc,
    Nat.mod_mod_of_dvd w.toNat (show 8 ∣ 256 by decide)]

/-- The bytes that spell a command under an opcode are those its format admits (R53 to R55). -/
theorem withOperand_isSome (op : Op) (b : Byte) :
    (withOperand op b).isSome ↔ OperandWellFormed (opBits op).toNat b.toNat := by
  cases op with
  | nop | clr | sep | flush | fin => simp [withOperand, formatZ_isSome, OperandWellFormed, opBits]
  | cfg => simp [withOperand, formatC_isSome, OperandWellFormed, opBits]
  | hrp | din => simp [withOperand, OperandWellFormed, opBits]
  | sym => simp [withOperand, formatS_isSome, OperandWellFormed, opBits]

/-! ### What the decoder answers (R57, R62) -/

/-- The reserved opcodes are named first, whatever the other bits (R57(a)). -/
theorem decode_eq_illegalOpcode_iff (w : Word) : decode w = .error .illegalOpcode ↔ 9 ≤ opNumber w := by
  rw [← opField_toNat, ← opOf_eq_none]
  unfold decode
  cases opOf (opField w) with
  | none => simp
  | some op =>
    simp only [reduceCtorEq, iff_false]
    split
    · split <;> simp
    · simp

theorem decode_eq_ok_iff (w : Word) (i : Instr) :
    decode w = .ok i ↔
      ∃ op, opOf (opField w) = some op ∧ (reservedHigh w = 0#16 ∧ reservedMid w = 0#4) ∧
        withOperand op (imm8 w) = some i := by
  unfold decode
  cases opOf (opField w) with
  | none => simp
  | some op =>
    by_cases hr : reservedHigh w = 0#16 ∧ reservedMid w = 0#4
    · cases hi : withOperand op (imm8 w) <;> simp [hr, hi]
    · simp [hr]

theorem opNumber_of_opOf {w : Word} {op : Op} (h : opOf (opField w) = some op) :
    opNumber w = (opBits op).toNat := by
  rw [opBits_of_opOf h, opField_toNat]

theorem exists_opOf {w : Word} (h : opNumber w ≤ 8) : ∃ op, opOf (opField w) = some op := by
  rw [← Option.ne_none_iff_exists', ne_eq, opOf_eq_none, opField_toNat]
  omega

/-- Of the words with a known opcode, the well-formed ones are the commands (R56). -/
theorem exists_decode_iff_wordWellFormed {w : Word} (h : opNumber w ≤ 8) :
    (∃ i, decode w = .ok i) ↔ WordWellFormed w := by
  obtain ⟨op, hop⟩ := exists_opOf h
  rw [wordWellFormed_iff, opNumber_of_opOf hop, ← withOperand_isSome, Option.isSome_iff_exists]
  simp [decode_eq_ok_iff, hop]

/-- An ill-formed word of a known opcode (R57(b)). -/
theorem decode_illegalOperand {w : Word} (h : opNumber w ≤ 8) (hw : ¬ WordWellFormed w) :
    decode w = .error .illegalOperand := by
  cases hd : decode w with
  | ok i => exact absurd ((exists_decode_iff_wordWellFormed h).1 ⟨i, hd⟩) hw
  | error e =>
    cases e with
    | illegalOpcode => have := (decode_eq_illegalOpcode_iff w).1 hd; omega
    | illegalOperand => rfl

/-- Decoding drops no bit: a word that decodes is the encoding of its command (R52 to R56). -/
theorem encode_of_decode {w : Word} {i : Instr} (h : decode w = .ok i) : encode i = w := by
  obtain ⟨op, hop, ⟨hhigh, hmid⟩, hi⟩ := (decode_eq_ok_iff w i).1 h
  obtain ⟨-, rfl, himm⟩ := (withOperand_iff op _ i).1 hi
  have hnum := opNumber_of_opOf hop
  rw [reservedHigh_eq_zero] at hhigh
  rw [reservedMid_eq_zero] at hmid
  apply BitVec.eq_of_toNat_eq
  rw [encode_toNat, himm, imm8_toNat, ← hnum, opNumber]
  omega

/-! ### Words that are no command -/

/-- Outside ERR a word that is no command raises its error (R57). -/
theorem execute_illegal {w : Word} {e : DecodeError} {s : State} (h : decode w = .error e) (hp : s.phase ≠ .err) :
    execute w s = .next (raise (decodeErrCode e) s) := by
  simp only [execute, h, rejectWord, if_neg hp]

theorem encode_clr : encode .clr = 0x00001000#32 := rfl

/-- In ERR every word but the encoding of CLR is ignored, a command or not (R57, R95). -/
theorem execute_in_err {w : Word} {s : State} (hp : s.phase = .err) (hw : w ≠ 0x00001000#32) :
    execute w s = .next s := by
  rw [← encode_clr] at hw
  unfold execute
  cases hd : decode w with
  | ok i =>
    have hi : i ≠ .clr := by rintro rfl; exact hw (encode_of_decode hd).symm
    exact exec_in_err hp hi
  | error e => simp only [rejectWord, if_pos hp]

/-! ### `Legal` (R63) -/

/-- CLR is in every row of the table. -/
theorem mem_legalPhases_clr {p : Phase} (hp : p ≠ .err) (r : Route) : p ∈ legalPhases .clr r := by
  cases p <;> simp_all [legalPhases]

/-- A well-formed command in a phase that the table does not list (R63). -/
theorem exec_sequence {i : Instr} {s : State} (hp : s.phase ≠ .err) (hw : i.WellFormed)
    (hl : s.phase ∉ legalPhases i.op s.route) : exec i s = .next (raise .sequence s) := by
  have hi : i ≠ .clr := by rintro rfl; exact hl (mem_legalPhases_clr hp s.route)
  rw [exec_of_ne_clr hi, dispatch_sequence hp hw hl]

/-- A command that is legal and raises no error ends with `err` clear (R38(a)). -/
theorem Inv.ruleOf_err {i : Instr} {s t : State} (hI : Inv s) (hw : i.WellFormed)
    (hl : s.phase ∈ legalPhases i.op s.route) (h : Machine.ruleOf i s = .ok t) : t.err = .noError :=
  (hI.ruleOf hw hl h).err_of_phase (ruleOf_phase h (legalPhases_ne_err hl))

/-- Only dispatch raises SEQUENCE, and only where the table does not list the phase (R63, R99). -/
theorem Inv.exec_err_ne_sequence {i : Instr} {s t : State} (hI : Inv s) (hw : i.WellFormed)
    (hl : s.phase ∈ legalPhases i.op s.route) (h : Machine.exec i s = .next t) : t.err ≠ .sequence := by
  rcases exec_cases h with ⟨-, rfl⟩ | ⟨-, hp, -⟩ | ⟨-, -, hnw, -⟩ | ⟨-, -, -, hnl, -⟩ | ⟨-, -, -, hok | ⟨e, he, rfl⟩⟩
  · simp
  · exact absurd hp (legalPhases_ne_err hl)
  · exact absurd hw hnw
  · exact absurd hl hnl
  · simp [hI.ruleOf_err hw hl hok]
  · rintro rfl
    simpa using ruleOf_error he

/-! ### The statements -/

/-- Settles O2: the decoder's fields as numbers are the clauses of R56. -/
theorem wellFormedWordsAreTheCommands : Obligations.WellFormedWordsAreTheCommands :=
  fun _ h => (exists_decode_iff_wordWellFormed h).symm

/-- Settles O4: the decoder names the error, and in ERR only the encoding of CLR decodes to CLR. -/
theorem illegalWordsRaise : Obligations.IllegalWordsRaise := by
  intro s w
  refine ⟨fun hp h => ?_, fun hp h hw => ?_, execute_in_err⟩
  · exact execute_illegal ((decode_eq_illegalOpcode_iff w).2 h) hp
  · exact execute_illegal (decode_illegalOperand h hw) hp

/-- Settles O6: dispatch raises SEQUENCE where the table does not list the phase, and no command's own rule does. -/
theorem legalTableDecidesSequence : Obligations.LegalTableDecidesSequence := by
  intro s i hI hp hw
  refine ⟨exec_sequence hp hw, fun hl => ?_, fun h => (hI.enc_phase h).1, hI.raw_phase⟩
  obtain ⟨t, ht⟩ := exec_next i s
  exact ⟨t, ht, hI.exec_err_ne_sequence hw hl ht⟩

end Sys2Proof.Machine
end

section
/-! Proofs of the statements about the converter (40_converter.md): its counts (R72, R73), DINs and a FLUSH as the
source's `convert` of the whole sequence (R70), and the round trip of two sessions (R71). -/

namespace Sys2Proof.Machine

/-! ### Chunks and the values they spell -/

theorem wholeChunks_lt {a n wo c : Nat} (h : c ∈ wholeChunks a n wo) : c < 2 ^ wo := by
  obtain ⟨k, -, rfl⟩ := List.mem_map.1 h
  exact Nat.mod_lt _ (by positivity)

theorem wholeChunks_of_lt {a n wo : Nat} (h : n < wo) : wholeChunks a n wo = [] := by
  simp [wholeChunks, Nat.div_eq_of_lt h]

theorem wholeChunks_self {a w : Nat} (hw : 0 < w) (ha : a < 2 ^ w) : wholeChunks a w w = [a] := by
  simp [wholeChunks, hw, Nat.mod_eq_of_lt ha]

/-- What stands above the bits that are cut does not matter. -/
theorem wholeChunks_high {a b n wo : Nat} (hwo : 0 < wo) (hb : b < 2 ^ n) :
    wholeChunks (a * 2 ^ n + b) n wo = wholeChunks b n wo := by
  simpa [wholeChunks, Nat.mod_one] using
    wholeChunks_append (a := a) (a' := 0) (n := 0) hwo hb (by simp [Nat.mod_one])

/-- One more chunk's bits are one more chunk. -/
theorem wholeChunks_succ {a b w q : Nat} (hw : 0 < w) (hb : b < 2 ^ w) :
    wholeChunks (a * 2 ^ w + b) (w * q + w) w = wholeChunks a (w * q) w ++ [b] := by
  rw [wholeChunks_append (a' := 0) hw hb (by simp [Nat.mod_one])]
  simp [wholeChunks_self hw hb]

theorem valuesNum_append_singleton (w v : Nat) (vs : List Nat) :
    valuesNum w (vs ++ [v]) = valuesNum w vs * 2 ^ w + v := by
  simp [valuesNum]

/-- Cutting at the values' own width gives the values back. -/
theorem wholeChunks_valuesNum {w : Nat} {vs : List Nat} (hw : 0 < w) (h : ∀ v ∈ vs, v < 2 ^ w) :
    wholeChunks (valuesNum w vs) (w * vs.length) w = vs := by
  induction vs using List.reverseRecOn with
  | nil => simp [wholeChunks]
  | append_singleton vs v ih =>
    rw [valuesNum_append_singleton, List.length_append, List.length_singleton, Nat.mul_add_one,
      wholeChunks_succ hw (h v (by simp)), ih (fun x hx => h x (by simp [hx]))]

/-- A number is what its chunks spell. -/
theorem valuesNum_wholeChunks {w q a : Nat} (hw : 0 < w) (ha : a < 2 ^ (w * q)) :
    valuesNum w (wholeChunks a (w * q) w) = a := by
  induction q generalizing a with
  | zero => simp [wholeChunks, valuesNum] at ha ⊢; omega
  | succ q ih =>
    have hhigh : a / 2 ^ w < 2 ^ (w * q) :=
      Nat.div_lt_of_lt_mul (by rwa [← Nat.pow_add, Nat.add_comm, ← Nat.mul_add_one])
    calc valuesNum w (wholeChunks a (w * (q + 1)) w)
        = valuesNum w (wholeChunks (a / 2 ^ w * 2 ^ w + a % 2 ^ w) (w * q + w) w) := by
          rw [Nat.div_add_mod', Nat.mul_add_one]
      _ = a / 2 ^ w * 2 ^ w + a % 2 ^ w := by
          rw [wholeChunks_succ hw (Nat.mod_lt _ (by positivity)), valuesNum_append_singleton, ih hhigh]
      _ = a := Nat.div_add_mod' a (2 ^ w)

/-! ### The source's `convert` -/

theorem ceil_div_eq {n w : Nat} (hw : 0 < w) : (n + w - 1) / w = n / w + if n % w = 0 then 0 else 1 := by
  have hn := Nat.div_add_mod n w
  have hr := Nat.mod_lt n hw
  generalize n / w = q at *
  split <;> rw [Nat.div_eq_iff hw, Nat.add_mul, Nat.mul_comm q w] <;> omega

theorem stream_length (wi : Nat) (vs : List Nat) : (vs.flatMap (bitsOf wi)).length = wi * vs.length := by
  simp [List.length_flatMap, bitsOf, Nat.mul_comm]

/-- How many values `convert` gives, whatever values it is given (R73). -/
theorem convert_length {wi wo : Nat} {pad : Bool} {vs cs : List Nat} (h : convert wi wo pad vs = some cs) :
    cs.length = wi * vs.length / wo + if pad = true ∧ 0 < wi * vs.length % wo then 1 else 0 := by
  have hleft : (vs.flatMap (bitsOf wi)).drop (wi * vs.length / wo * wo) = [] ↔ wi * vs.length % wo = 0 := by
    rw [List.drop_eq_nil_iff, stream_length]
    have := Nat.div_add_mod' (wi * vs.length) wo
    omega
  simp only [convert, stream_length, hleft] at h
  cases pad with
  | true =>
    simp only [if_true, Option.some.injEq] at h
    subst h
    by_cases hr : wi * vs.length % wo = 0 <;> simp [hr, Nat.pos_iff_ne_zero]
  | false =>
    simp only [Bool.false_eq_true, if_false] at h
    split at h
    · cases h
    · cases h; simp

theorem convert_length_le {wi wo : Nat} {pad : Bool} {vs cs : List Nat} (hwo : 0 < wo)
    (h : convert wi wo pad vs = some cs) : cs.length ≤ (wi * vs.length + wo - 1) / wo := by
  rw [convert_length h, ceil_div_eq hwo]
  split_ifs <;> omega

/-- With padding there is always a result, as long as the input rounded up to chunks. -/
theorem convert_pad_length {wi wo : Nat} (hwo : 0 < wo) (vs : List Nat) :
    ∃ cs, convert wi wo true vs = some cs ∧ cs.length = (wi * vs.length + wo - 1) / wo := by
  refine ⟨_, rfl, ?_⟩
  rw [convert_length (wi := wi) (wo := wo) (pad := true) rfl, ceil_div_eq hwo]
  rcases Nat.eq_zero_or_pos (wi * vs.length % wo) with hr | hr
  · simp [hr]
  · simp [hr, hr.ne']

/-- With padding, `convert` cuts the stream continued by the `z` zeros that fill its last chunk. -/
theorem convert_pad_eq {wi wo q z : Nat} {vs : List Nat} (hv : ∀ v ∈ vs, v < 2 ^ wi) (hz : z < wo)
    (hq : wi * vs.length + z = wo * q) :
    convert wi wo true vs = some (wholeChunks (valuesNum wi vs * 2 ^ z) (wo * q) wo) := by
  have hwo : 0 < wo := by omega
  have hlast : valuesNum wi vs % 2 ^ (wi * vs.length % wo) < 2 ^ (wi * vs.length % wo) := Nat.mod_lt _ (by positivity)
  have hcut := wholeChunks_append (a := valuesNum wi vs) (n := wi * vs.length) hwo
    (show 0 < 2 ^ z by positivity) (Nat.mod_mod _ _).symm
  rw [Nat.add_zero, Nat.add_zero, hq] at hcut
  have hr : (wi * vs.length % wo + z) % wo = 0 := by rw [Nat.mod_add_mod, hq, Nat.mul_mod_right]
  have hrlt := Nat.mod_lt (wi * vs.length) hwo
  simp only [convert_eq _ _ _ _ hv, if_true]
  rw [hcut]
  generalize wi * vs.length % wo = r at *
  congr 2
  split
  · rw [wholeChunks_of_lt (by omega)]
  · obtain rfl : r + z = wo := Nat.eq_of_dvd_of_lt_two_mul (by omega) (Nat.dvd_of_mod_eq_zero hr) (by omega)
    rw [Nat.add_sub_cancel_left, wholeChunks_self hwo]
    rw [Nat.pow_add]
    exact Nat.mul_lt_mul_of_pos_right hlast (by positivity)

/-- Every bit count is completed to whole chunks by fewer bits than one. -/
theorem exists_fill {w : Nat} (hw : 0 < w) (n : Nat) : ∃ z q, z < w ∧ n + z = w * q := by
  have hm := Nat.mod_lt (n + w - 1) hw
  have hd := Nat.div_add_mod (n + w - 1) w
  exact ⟨w - 1 - (n + w - 1) % w, (n + w - 1) / w, by omega, by omega⟩

/-- `convert` back without padding recovers the values (R71): fewer zeros are left than a chunk takes. -/
theorem convert_convert {wi wo : Nat} {vs cs : List Nat} (hwo : 0 < wo) (hle : wo ≤ wi)
    (hv : ∀ v ∈ vs, v < 2 ^ wi) (h : convert wi wo true vs = some cs) :
    (∀ c ∈ cs, c < 2 ^ wo) ∧ convert wo wi false cs = some vs := by
  obtain ⟨z, q, hz, hq⟩ := exists_fill hwo (wi * vs.length)
  obtain rfl := Option.some.inj ((convert_pad_eq hv hz hq).symm.trans h)
  have hc : ∀ c ∈ wholeChunks (valuesNum wi vs * 2 ^ z) (wo * q) wo, c < 2 ^ wo := fun c => wholeChunks_lt
  have hlen : (wholeChunks (valuesNum wi vs * 2 ^ z) (wo * q) wo).length = q := by simp [hwo]
  have hnum : valuesNum wo (wholeChunks (valuesNum wi vs * 2 ^ z) (wo * q) wo) = valuesNum wi vs * 2 ^ z := by
    refine valuesNum_wholeChunks hwo ?_
    rw [← hq, Nat.pow_add]
    exact Nat.mul_lt_mul_of_pos_right (valuesNum_lt hv) (by positivity)
  have hback : wholeChunks (valuesNum wi vs * 2 ^ z) (wi * vs.length + z) wi = vs := by
    have := wholeChunks_append (a := valuesNum wi vs) (a' := 0) (n := wi * vs.length) (wo := wi) (by omega)
      (show 0 < 2 ^ z by positivity) (by simp [Nat.mod_one])
    simpa [wholeChunks_valuesNum (show 0 < wi by omega) hv, wholeChunks_of_lt (show z < wi by omega)] using this
  refine ⟨hc, ?_⟩
  have hmod : (wi * vs.length + z) % wi = z := by rw [Nat.mul_add_mod, Nat.mod_eq_of_lt (by omega)]
  simp only [convert_eq _ _ _ _ hc, hlen, hnum]
  simp [← hq, hback, hmod, hz]

/-! ### Delivering bits to the converter -/

/-- A command that ends outside ERR did what its own rule says (R62). -/
theorem exec_completed {i : Instr} {s t : State} (hi : i ≠ .clr) (h : exec i s = .next t) (ht : t.phase ≠ .err) :
    s.phase ∈ legalPhases i.op s.route ∧ ruleOf i s = .ok t := by
  rcases exec_cases h with ⟨rfl, -⟩ | ⟨-, hp, rfl⟩ | ⟨-, -, -, rfl⟩ | ⟨-, -, -, -, rfl⟩ | ⟨-, hl, -, hok | ⟨e, -, rfl⟩⟩
  · exact absurd rfl hi
  · exact absurd hp ht
  · exact absurd rfl ht
  · exact absurd rfl ht
  · exact ⟨hl, hok⟩
  · exact absurd rfl ht

theorem execAll_cons {i : Instr} {is : List Instr} {s t : State} (h : exec i s = .next t) :
    execAll (i :: is) s = execAll is t := by
  simp only [execAll, h]

/-- Bits left over count towards the next chunk. -/
theorem chunk_count_add (n m : Nat) {w : Nat} (hw : 0 < w) : (n + m) / w = n / w + (n % w + m) / w := by
  rw [← Nat.mul_add_div hw, ← Nat.add_assoc, Nat.div_add_mod]

@[simp] theorem chkAfter_nil (r : Route) (c : Chk) : chkAfter r c [] = c := by cases r <;> rfl

/-- The chunks that `n` more bits of value `b` complete. -/
def State.chunksOf (s : State) (n b : Nat) : List Nat :=
  wholeChunks (s.acc.toNat * 2 ^ n + b) (s.cnt.toNat + n) (toBits s.dir)

/-- The converter after `n` more bits of value `b`, in phase `p`: what one DIN or several do (R65, R67, R68). -/
def State.shiftIn (s : State) (p : Phase) (n b : Nat) : State :=
  { s with
    acc := BitVec.ofNat 12 (s.acc.toNat * 2 ^ n + b)
    cnt := BitVec.ofNat 4 ((s.cnt.toNat + n) % toBits s.dir)
    chk := chkAfter s.route s.chk (s.chunksOf n b)
    fifo := s.fifo ++ (s.chunksOf n b).map (itemOf s.route)
    phase := p }

@[simp] theorem chunksOf_length (s : State) (n b : Nat) :
    (s.chunksOf n b).length = (s.cnt.toNat + n) / toBits s.dir := wholeChunks_length _ _ _

@[simp] theorem shiftIn_params (s : State) (p : Phase) (n b : Nat) : (s.shiftIn p n b).params = s.params := rfl
@[simp] theorem shiftIn_dir (s : State) (p : Phase) (n b : Nat) : (s.shiftIn p n b).dir = s.dir := rfl
@[simp] theorem shiftIn_route (s : State) (p : Phase) (n b : Nat) : (s.shiftIn p n b).route = s.route := rfl
@[simp] theorem shiftIn_pad (s : State) (p : Phase) (n b : Nat) : (s.shiftIn p n b).pad = s.pad := rfl
@[simp] theorem shiftIn_phase (s : State) (p : Phase) (n b : Nat) : (s.shiftIn p n b).phase = p := rfl

@[simp] theorem shiftIn_cnt (s : State) (p : Phase) (n b : Nat) :
    (s.shiftIn p n b).cnt.toNat = (s.cnt.toNat + n) % toBits s.dir := cnt_toNat _ _

@[simp] theorem shiftIn_acc (s : State) (p : Phase) (n b : Nat) :
    (s.shiftIn p n b).acc.toNat = (s.acc.toNat * 2 ^ n + b) % 4096 := BitVec.toNat_ofNat _ _

@[simp] theorem shiftIn_fifo_length (s : State) (p : Phase) (n b : Nat) :
    (s.shiftIn p n b).fifo.length = s.fifo.length + (s.cnt.toNat + n) / toBits s.dir := by
  simp [State.shiftIn]

theorem shiftIn_zero {s : State} (hc : s.cnt.toNat < toBits s.dir) : s.shiftIn s.phase 0 0 = s := by
  have hcs : s.chunksOf 0 0 = [] := wholeChunks_of_lt hc
  simp [State.shiftIn, hcs, Nat.mod_eq_of_lt hc]

/-- Masking the accumulator to 12 bits loses none of the bits that are still to be cut (R70). -/
theorem acc_mod_pow_cnt (d : Dir) (a n : Nat) : a % 4096 % 2 ^ (n % toBits d) = a % 2 ^ (n % toBits d) := by
  have hlt := Nat.mod_lt n (toBits_pos d)
  have hle : toBits d ≤ 12 := by cases d <;> decide
  exact Nat.mod_mod_of_dvd _ (pow_dvd_pow 2 (show n % toBits d ≤ 12 by omega))

theorem chunksOf_append {s : State} {p : Phase} {n m a b : Nat} (hb : b < 2 ^ m) :
    s.chunksOf (n + m) (a * 2 ^ m + b) = s.chunksOf n a ++ (s.shiftIn p n a).chunksOf m b := by
  simp only [State.chunksOf, shiftIn_acc, shiftIn_cnt, shiftIn_dir]
  rw [← wholeChunks_append (toBits_pos s.dir) hb (acc_mod_pow_cnt s.dir _ _).symm]
  congr 1 <;> ring

/-- Bits delivered in two goes are the bits delivered in one. -/
theorem shiftIn_shiftIn {s : State} {p q : Phase} {n m a b : Nat} (hb : b < 2 ^ m) :
    (s.shiftIn p n a).shiftIn q m b = s.shiftIn q (n + m) (a * 2 ^ m + b) := by
  have hacc : BitVec.ofNat 12 ((s.shiftIn p n a).acc.toNat * 2 ^ m + b) =
      BitVec.ofNat 12 (s.acc.toNat * 2 ^ (n + m) + (a * 2 ^ m + b)) := by
    apply BitVec.eq_of_toNat_eq
    simp only [BitVec.toNat_ofNat, shiftIn_acc, Nat.pow_add]
    rw [Nat.add_mod, Nat.mod_mul_mod, ← Nat.add_mod]
    ring_nf
  have hcnt : ((s.shiftIn p n a).cnt.toNat + m) % toBits s.dir = (s.cnt.toNat + (n + m)) % toBits s.dir := by
    rw [shiftIn_cnt, Nat.mod_add_mod, Nat.add_assoc]
  have hcs := chunksOf_append (s := s) (p := p) (n := n) (a := a) hb
  have hchk : chkAfter s.route (s.shiftIn p n a).chk ((s.shiftIn p n a).chunksOf m b) =
      chkAfter s.route s.chk (s.chunksOf (n + m) (a * 2 ^ m + b)) := by
    rw [hcs, chkAfter_append]; rfl
  have hfifo : (s.shiftIn p n a).fifo ++ ((s.shiftIn p n a).chunksOf m b).map (itemOf s.route) =
      s.fifo ++ (s.chunksOf (n + m) (a * 2 ^ m + b)).map (itemOf s.route) := by
    rw [hcs, List.map_append, ← List.append_assoc]; rfl
  rw [State.shiftIn, shiftIn_dir, shiftIn_route, hacc, hcnt, hchk, hfifo]
  rfl

/-- DIN's own rule, of a value that fits: all of its bits, or OVERFLOW (R65, R67, R68). -/
theorem dinRule_eq_shiftIn {s : State} {v : Byte} (hv : v.toNat < 2 ^ fromBits s.dir)
    (hc : s.cnt.toNat < toBits s.dir) :
    dinRule v s =
      if s.fifo.length + (s.cnt.toNat + fromBits s.dir) / toBits s.dir ≤ s.params.outDepth then
        .ok (s.shiftIn (rawPhase s.route .conv s.phase) (fromBits s.dir) v.toNat)
      else .error .overflow := by
  have hacc : ∀ a, BitVec.ofNat 12 (a % 4096) = BitVec.ofNat 12 a := fun a => BitVec.eq_of_toNat_eq (by simp)
  simp only [dinRule_eq hv hc, hacc]
  split
  · next h => exact push_ok (by simpa using h)
  · next h => exact push_overflow (by simpa using h)

/-- DIN where it is legal, of a value that fits, with room for its chunks. -/
theorem exec_din {s : State} {v : Byte} (hl : s.phase ∈ legalPhases .din s.route) (hc : s.cnt.toNat < toBits s.dir)
    (hv : v.toNat < 2 ^ fromBits s.dir)
    (hroom : s.fifo.length + (s.cnt.toNat + fromBits s.dir) / toBits s.dir ≤ s.params.outDepth) :
    exec (.din v) s = .next (s.shiftIn (rawPhase s.route .conv s.phase) (fromBits s.dir) v.toNat) :=
  exec_ok (by simp) trivial hl ((dinRule_eq_shiftIn hv hc).trans (if_pos hroom))

/-- What a DIN that raises nothing has done. -/
theorem exec_din_completed {s t : State} {v : Byte} (hI : Inv s) (h : exec (.din v) s = .next t)
    (ht : t.phase ≠ .err) : t = s.shiftIn (rawPhase s.route .conv s.phase) (fromBits s.dir) v.toNat := by
  have hok : dinRule v s = .ok t := (exec_completed (by simp) h ht).2
  obtain ⟨hv, -, -⟩ := dinRule_ok hok
  rw [dinRule_eq_shiftIn hv hI.cnt_lt] at hok
  split at hok
  · exact (Except.ok.inj hok).symm
  · cases hok

/-- The table of R73, as the division that `ConvPush` does. -/
theorem eightToFive_counts : ∀ c < 5, (c, (c + 8) / 5, (c + 8) % 5) ∈
    [(0, 1, 3), (1, 1, 4), (2, 2, 0), (3, 2, 1), (4, 2, 2)] := by decide

theorem fiveToEight_counts : ∀ c < 8, (c, (c + 5) / 8, (c + 5) % 8) ∈
    [(0, 0, 5), (1, 0, 6), (2, 0, 7), (3, 1, 0), (4, 1, 1), (5, 1, 2), (6, 1, 3), (7, 1, 4)] := by decide

theorem rawPhase_conv_legal {r : Route} {p : Phase} (hl : p ∈ legalPhases .din r) :
    rawPhase r .conv p ∈ legalPhases .din r := by
  cases r
  · exact hl
  · simp [rawPhase, legalPhases]

/-- DINs, with room for their chunks (R70). -/
theorem execAll_dins {s : State} {vs : List Byte} (hl : s.phase ∈ legalPhases .din s.route)
    (hc : s.cnt.toNat < toBits s.dir) (hv : ∀ v ∈ vs, v.toNat < 2 ^ fromBits s.dir)
    (hroom : s.fifo.length + (s.cnt.toNat + fromBits s.dir * vs.length) / toBits s.dir ≤ s.params.outDepth) :
    ∃ p ∈ legalPhases .din s.route, execAll (vs.map .din) s =
      .next (s.shiftIn p (fromBits s.dir * vs.length) (valuesNum (fromBits s.dir) (vs.map BitVec.toNat))) := by
  induction vs generalizing s with
  | nil => exact ⟨s.phase, hl, by simp [execAll, valuesNum, shiftIn_zero hc]⟩
  | cons v vs ih =>
    have hbits : fromBits s.dir * (v :: vs).length = fromBits s.dir + fromBits s.dir * vs.length := by
      rw [List.length_cons, Nat.mul_add_one, Nat.add_comm]
    have hval : valuesNum (fromBits s.dir) (vs.map BitVec.toNat) < 2 ^ (fromBits s.dir * vs.length) := by
      simpa using valuesNum_lt (vs := vs.map BitVec.toNat) (by simpa using fun x hx => hv x (by simp [hx]))
    rw [hbits, ← Nat.add_assoc, chunk_count_add _ _ (toBits_pos _), ← Nat.add_assoc] at hroom
    have hfirst := exec_din hl hc (hv v (by simp)) (le_of_add_le_left hroom)
    obtain ⟨p, hp, hrest⟩ := ih (s := s.shiftIn (rawPhase s.route .conv s.phase) (fromBits s.dir) v.toNat)
      (rawPhase_conv_legal hl) (by simp [Nat.mod_lt _ (toBits_pos s.dir)]) (fun x hx => hv x (by simp [hx]))
      (by simpa using hroom)
    refine ⟨p, hp, ?_⟩
    rw [List.map_cons, execAll_cons hfirst, hrest, hbits, List.map_cons, valuesNum_cons, List.length_map]
    exact congrArg _ (shiftIn_shiftIn hval)

/-! ### Ending the converter's input -/

/-- The state after a FLUSH whose chunks are `cs` (R69). -/
def State.flushed (s : State) (cs : List Nat) : State :=
  { s with
    acc := 0#12
    cnt := 0#4
    chk := chkAfter s.route s.chk cs
    fifo := s.fifo ++ cs.map (itemOf s.route)
    phase := rawPhase s.route .done s.phase }

/-- `ConvFlush` of what the converter holds (R66). -/
def State.convFlushOf (s : State) : Option (List Nat) :=
  convFlush s.acc.toNat s.cnt.toNat s.pad (fromBits s.dir) (toBits s.dir)

/-- FLUSH is legal where DIN is (R63). -/
theorem legalPhases_flush (r : Route) : legalPhases .flush r = legalPhases .din r := by cases r <;> rfl

theorem exec_flush_some {s : State} {cs : List Nat} (hl : s.phase ∈ legalPhases .flush s.route)
    (h : s.convFlushOf = some cs) (hroom : s.fifo.length + cs.length ≤ s.params.outDepth) :
    exec .flush s = .next (s.flushed cs) := by
  refine exec_ok (by simp) trivial hl ?_
  rw [ruleOf, flushRule_some h, push_ok (by simpa using hroom), State.flushed]

theorem exec_flush_none {s : State} (hl : s.phase ∈ legalPhases .flush s.route) (h : s.convFlushOf = none) :
    exec .flush s = .next (raise .reject s) :=
  exec_error (by simp) trivial hl (flushRule_reject h)

/-- With nothing buffered there is nothing to flush, whatever the configuration (R72). -/
theorem convFlushOf_of_cnt_zero {s : State} (hc : s.cnt = 0#4) : s.convFlushOf = some [] := by
  have hfrom : 0 < fromBits s.dir := by cases s.dir <;> decide
  rw [State.convFlushOf, convFlush_eq (by simp [hc, toBits_pos])]
  simp [hc, hfrom, Nat.mod_one]

/-- One chunk when there is padding to do, else none (R73). -/
theorem convFlushOf_length {s : State} {cs : List Nat} (hc : s.cnt.toNat < toBits s.dir)
    (h : s.convFlushOf = some cs) : cs.length = if s.pad = true ∧ 0 < s.cnt.toNat then 1 else 0 := by
  rw [State.convFlushOf, convFlush_eq hc] at h
  split at h
  · cases h; split <;> rfl
  · cases h

/-- What a FLUSH that raises nothing has done. -/
theorem exec_flush_completed {s t : State} (h : exec .flush s = .next t) (ht : t.phase ≠ .err) :
    ∃ cs, s.convFlushOf = some cs ∧ t = s.flushed cs := by
  obtain ⟨cs, hcs, -, rfl⟩ := flushRule_ok (exec_completed (by simp) h ht).2
  exact ⟨cs, hcs, rfl⟩

/-- `convert` of a whole sequence is the whole chunks of its bits, then `ConvFlush` of the bits left (R70). -/
theorem convert_eq_convFlushOf {s : State} (p : Phase) {vs : List Nat} {n b : Nat} (hc : s.cnt = 0#4)
    (hv : ∀ v ∈ vs, v < 2 ^ fromBits s.dir) (hn : fromBits s.dir * vs.length = n)
    (hb : valuesNum (fromBits s.dir) vs = b) :
    convert (fromBits s.dir) (toBits s.dir) s.pad vs =
      (s.shiftIn p n b).convFlushOf.map (s.chunksOf n b ++ ·) := by
  have hcnt : (s.shiftIn p n b).cnt.toNat = n % toBits s.dir := by simp [hc]
  have hcs : s.chunksOf n b = wholeChunks b n (toBits s.dir) := by
    simp only [State.chunksOf, hc, BitVec.toNat_ofNat, Nat.zero_mod, Nat.zero_add]
    exact wholeChunks_high (toBits_pos _) (by rw [← hn, ← hb]; exact valuesNum_lt hv)
  have hacc : (s.shiftIn p n b).acc.toNat % 2 ^ (n % toBits s.dir) = b % 2 ^ (n % toBits s.dir) := by
    obtain ⟨k, hk⟩ := pow_dvd_pow 2 (Nat.mod_le n (toBits s.dir))
    rw [shiftIn_acc, acc_mod_pow_cnt, hk, Nat.mul_left_comm, Nat.mul_add_mod]
  have hlt : (s.shiftIn p n b).cnt.toNat < toBits s.dir := by rw [hcnt]; exact Nat.mod_lt _ (toBits_pos _)
  rw [State.convFlushOf, convFlush_eq hlt, hcnt, hacc, hcs, convert_eq _ _ _ _ hv, hn, hb]
  simp only [shiftIn_pad, shiftIn_dir]
  by_cases hpad : s.pad = true
  · by_cases hr : n % toBits s.dir = 0 <;> simp [hpad, hr, Nat.pos_iff_ne_zero]
  · by_cases hr : n % toBits s.dir < fromBits s.dir ∧ b % 2 ^ (n % toBits s.dir) = 0
    · simp [hpad, hr, Nat.not_le.2 hr.1]
    · have hr' : fromBits s.dir ≤ n % toBits s.dir ∨ b % 2 ^ (n % toBits s.dir) ≠ 0 := by omega
      simp [hpad, hr, hr']

/-- Bits delivered and then flushed, as one effect. -/
theorem shiftIn_flushed {s : State} {p : Phase} {n b : Nat} {cs : List Nat} (hl : s.phase ∈ legalPhases .din s.route)
    (hp : p ∈ legalPhases .din s.route) : (s.shiftIn p n b).flushed cs = s.flushed (s.chunksOf n b ++ cs) := by
  have hphase : rawPhase s.route .done p = rawPhase s.route .done s.phase := by
    cases hr : s.route with
    | enc => rw [(legal_din hp).1 hr, (legal_din hl).1 hr]
    | raw => rfl
  simp only [State.flushed, shiftIn_route, shiftIn_phase, hphase, chkAfter_append, List.map_append]
  simp only [State.shiftIn, List.append_assoc]

section
variable {s : State} {vs : List Byte} (hl : s.phase ∈ legalPhases .din s.route) (hc : s.cnt = 0#4)
  (hv : ∀ v ∈ vs, v.toNat < 2 ^ fromBits s.dir)
  (hroom : s.fifo.length + (vs.length * fromBits s.dir + toBits s.dir - 1) / toBits s.dir ≤ s.params.outDepth)
include hl hc hv hroom

/-- DINs and then a FLUSH come down to the FLUSH, after all of the values' bits. -/
theorem execAll_dins_flush : ∃ p ∈ legalPhases .din s.route,
    execAll (vs.map .din ++ [.flush]) s =
      execAll [.flush] (s.shiftIn p (fromBits s.dir * vs.length)
        (valuesNum (fromBits s.dir) (vs.map BitVec.toNat))) := by
  have hle : (s.cnt.toNat + fromBits s.dir * vs.length) / toBits s.dir ≤
      (vs.length * fromBits s.dir + toBits s.dir - 1) / toBits s.dir := by
    have := toBits_pos s.dir
    apply Nat.div_le_div_right
    rw [hc, Nat.mul_comm]
    simp; omega
  obtain ⟨p, hp, h⟩ := execAll_dins hl (by simp [hc, toBits_pos]) hv (by omega)
  exact ⟨p, hp, execAll_append h⟩

/-- Where `convert` has a result, DINs and a FLUSH push its items (R70). -/
theorem execAll_dins_flush_some {cs : List Nat}
    (h : convert (fromBits s.dir) (toBits s.dir) s.pad (vs.map BitVec.toNat) = some cs) :
    execAll (vs.map .din ++ [.flush]) s = .next (s.flushed cs) := by
  obtain ⟨p, hp, hrun⟩ := execAll_dins_flush hl hc hv hroom
  have hlen := convert_length_le (toBits_pos _) h
  rw [convert_eq_convFlushOf p hc (by simpa using hv) (by rw [List.length_map]) rfl] at h
  obtain ⟨ds, hds, rfl⟩ := Option.map_eq_some_iff.1 h
  rw [hrun, ← shiftIn_flushed hl hp]
  refine execAll_single (exec_flush_some (by simpa [legalPhases_flush] using hp) hds ?_)
  rw [List.length_append, chunksOf_length, List.length_map, Nat.mul_comm _ vs.length] at hlen
  rw [shiftIn_fifo_length, shiftIn_params, Nat.mul_comm _ vs.length]
  omega

/-- Where `convert` has no result, the FLUSH raises REJECT (R70). -/
theorem execAll_dins_flush_none (h : convert (fromBits s.dir) (toBits s.dir) s.pad (vs.map BitVec.toNat) = none) :
    ∃ t, execAll (vs.map .din ++ [.flush]) s = .next (raise .reject t) := by
  obtain ⟨p, hp, hrun⟩ := execAll_dins_flush hl hc hv hroom
  rw [convert_eq_convFlushOf p hc (by simpa using hv) (by rw [List.length_map]) rfl] at h
  rw [hrun]
  exact ⟨_, execAll_single (exec_flush_none (by simpa [legalPhases_flush] using hp) (Option.map_eq_none_iff.1 h))⟩

end

/-! ### A whole RAW session -/

theorem map_toNat_ofNat {w : Nat} {cs : List Nat} (h : ∀ c ∈ cs, c < 2 ^ w) :
    (cs.map (BitVec.ofNat w)).map BitVec.toNat = cs := by
  rw [List.map_map, List.map_congr_left (g := id) fun c hc => by simp [Nat.mod_eq_of_lt (h c hc)], List.map_id]

theorem map_ofNat_toNat {w : Nat} (bs : List (BitVec w)) : (bs.map BitVec.toNat).map (BitVec.ofNat w) = bs := by
  simp [Function.comp_def]

/-- An empty session with configuration `c` (R91, R92). -/
def State.newSession (s : State) (c : BitVec 3) : State := { doClr s with cfg := c }

@[simp] theorem newSession_params (s : State) (c : BitVec 3) : (s.newSession c).params = s.params := rfl
@[simp] theorem newSession_phase (s : State) (c : BitVec 3) : (s.newSession c).phase = .idle := rfl
@[simp] theorem newSession_cnt (s : State) (c : BitVec 3) : (s.newSession c).cnt = 0#4 := rfl
@[simp] theorem newSession_fifo (s : State) (c : BitVec 3) : (s.newSession c).fifo = [] := rfl
@[simp] theorem newSession_route (s : State) (c : BitVec 3) : (s.newSession c).route = routeOf c := rfl
@[simp] theorem newSession_dir (s : State) (c : BitVec 3) : (s.newSession c).dir = dirOf c := rfl

/-- CLR and a legal CFG open a session from any phase, ERR included. -/
theorem execAll_clr_cfg {c : BitVec 3} (hc : CfgLegal c) (is : List Instr) (s : State) :
    execAll ([.clr, .cfg c] ++ is) s = execAll is (s.newSession c) := by
  have hcfg : exec (.cfg c) (doClr s) = .next (s.newSession c) :=
    exec_ok (by simp) hc (by simp [Instr.op, legalPhases]) rfl
  rw [List.cons_append, List.singleton_append, execAll_cons (exec_clr s), execAll_cons hcfg]

/-- CLR, CFG of a RAW configuration, DINs and FLUSH end in a valid result: the values of `convert` (R70). -/
theorem execAll_rawSession {s : State} {c : BitVec 3} {vs : List Byte} {cs : List Nat} (hc : CfgLegal c)
    (hraw : routeOf c = .raw) (hv : ∀ v ∈ vs, v.toNat < 2 ^ fromBits (dirOf c))
    (hroom : (vs.length * fromBits (dirOf c) + toBits (dirOf c) - 1) / toBits (dirOf c) ≤ s.params.outDepth)
    (h : convert (fromBits (dirOf c)) (toBits (dirOf c)) (padOf c) (vs.map BitVec.toNat) = some cs) :
    ∃ t, execAll ([.clr, .cfg c] ++ vs.map .din ++ [.flush]) s = .next t ∧ ResultValid t ∧
      t.fifo = cs.map (BitVec.ofNat 8) ∧ t.params = s.params := by
  refine ⟨(s.newSession c).flushed cs, ?_, ⟨?_, rfl⟩, ?_, rfl⟩
  · rw [List.append_assoc, execAll_clr_cfg hc]
    exact execAll_dins_flush_some (s := s.newSession c) (by simp [hraw, legalPhases]) (newSession_cnt s c) hv
      (by simpa using hroom) h
  · simp [State.flushed, hraw, rawPhase]
  · rw [State.flushed, newSession_route, newSession_fifo, hraw]
    rfl

/-! ### The statements -/

/-- Settles O36: `ConvFlush` of no bits is no chunk, with padding or without. -/
theorem flushOfNoInputIsEmpty : Obligations.FlushOfNoInputIsEmpty := by
  intro s hI hl hc
  rw [exec_flush_some hl (convFlushOf_of_cnt_zero hc) (by simpa using hI.fifo_le), ← rawPhase_eq]
  simp only [State.flushed, chkAfter_nil, List.map_nil, List.append_nil, hc]

/-- Settles O37: the count before decides the chunks of a DIN and of a FLUSH, and `convert` rounds up. -/
theorem chunkCountsPerCommand : Obligations.ChunkCountsPerCommand := by
  refine ⟨fun s t v hI h ht => ?din, fun s t hI h ht => ?flush, fun bs => ?convert⟩
  case din =>
    obtain rfl := exec_din_completed hI h ht
    have hc := hI.cnt_lt
    rw [shiftIn_fifo_length, shiftIn_cnt, Nat.add_sub_cancel_left]
    constructor
    · intro hd
      rw [hd] at hc ⊢
      exact eightToFive_counts _ hc
    · intro hd
      rw [hd] at hc ⊢
      exact fiveToEight_counts _ hc
  case flush =>
    obtain ⟨cs, hcs, rfl⟩ := exec_flush_completed h ht
    simp [State.flushed, convFlushOf_length hI.cnt_lt hcs]
  case convert =>
    obtain ⟨d, hd, hlen⟩ := convert_pad_length (wi := 8) (show 0 < 5 by decide) bs
    exact ⟨d, hd, hlen, by omega⟩

/-- Settles O38: the DINs cut the whole chunks, and the FLUSH does what `convert` does with the bits left. -/
theorem dinsThenFlushIsConvert : Obligations.DinsThenFlushIsConvert := by
  intro s vs _ hl hc hv hroom
  cases h : convert (fromBits s.dir) (toBits s.dir) s.pad (vs.map BitVec.toNat) with
  | some cs => exact ⟨_, execAll_dins_flush_some hl hc hv hroom h, by simp only [State.flushed, rawPhase_eq]⟩
  | none =>
    obtain ⟨t, ht⟩ := execAll_dins_flush_none hl hc hv hroom h
    exact ⟨_, ht, rfl, rfl, rfl⟩

/-- Settles O39: two RAW sessions are `convert` there and back. -/
theorem roundTripRecoversTheBytes : Obligations.RoundTripRecoversTheBytes := by
  intro s bs _ hroom
  obtain ⟨cs, hcs, hlen⟩ := convert_pad_length (wi := 8) (wo := 5) (by decide) (bs.map BitVec.toNat)
  obtain ⟨hlt, hback⟩ := convert_convert (by decide) (by decide) (by simpa using fun b _ => b.isLt) hcs
  rw [List.length_map] at hlen
  obtain ⟨t, hrun, hvalid, hfifo, hparams⟩ := execAll_rawSession (s := s) (c := 0b101#3) (by decide) (by decide)
    (fun v _ => v.isLt) (by simp [fromBits, toBits, dirOf]; omega) hcs
  have hvals : t.fifo.map BitVec.toNat = cs := by
    rw [hfifo]
    exact map_toNat_ofNat fun c hc => lt_trans (hlt c hc) (by decide)
  have hitem : ∀ v ∈ t.fifo, v.toNat < 2 ^ 5 := fun v hv => hlt _ (hvals ▸ List.mem_map_of_mem hv)
  have hcount : t.fifo.length = (8 * bs.length + 4) / 5 := by simpa [hfifo] using hlen
  obtain ⟨u, hrun', hvalid', hfifo', -⟩ := execAll_rawSession (s := t) (c := 0b110#3) (by decide) (by decide) hitem
    (by rw [hcount, hparams]; simp [fromBits, toBits, dirOf]; omega) (hvals ▸ hback)
  exact ⟨t, u, hrun, hvalid, hrun', hvalid', hfifo'.trans (map_ofNat_toNat bs)⟩

end Sys2Proof.Machine
end

section
/-! Proofs of the statements about the checksum (41_checksum.md): `PolymodStep` on numbers (R74, R75), and a session's
own checksum fed back (R82). -/

namespace Sys2Proof.Machine

/-! ### `PolymodStep` on numbers -/

theorem genSum_cons_toNat (b : Symbol) (i : Nat) (g : Chk) (gs : List Chk) :
    (genSum b i (g :: gs)).toNat =
      (if b.toNat.testBit i then g.toNat else 0) ^^^ (genSum b (i + 1) gs).toNat := by
  rw [genSum, BitVec.toNat_xor, apply_ite BitVec.toNat, BitVec.testBit_toNat]
  rfl

/-- The five constants, each under its bit of `b` (R74). -/
theorem genSum_gen_toNat (b : Symbol) :
    (genSum b 0 gen).toNat =
      (if b.toNat.testBit 0 then 0x3b6a57b2 else 0) ^^^ (if b.toNat.testBit 1 then 0x26508e6d else 0) ^^^
      (if b.toNat.testBit 2 then 0x1ea119fa else 0) ^^^ (if b.toNat.testBit 3 then 0x3d4233dd else 0) ^^^
      (if b.toNat.testBit 4 then 0x2a1462b3 else 0) := by
  simp only [gen, genSum_cons_toNat]
  simp [genSum, Nat.xor_assoc]

/-- The low 25 bits move up by five places, and none is lost. -/
theorem low25_shiftLeft_toNat (c : Chk) :
    ((c &&& 0x1ffffff#30) <<< 5).toNat = (c.toNat &&& 0x1ffffff) <<< 5 := by
  have hlow : c.toNat &&& 0x1ffffff ≤ 0x1ffffff := Nat.and_le_right
  rw [BitVec.toNat_shiftLeft, BitVec.toNat_and, Nat.mod_eq_of_lt]
  · rfl
  · rw [Nat.shiftLeft_eq]
    exact lt_of_le_of_lt (Nat.mul_le_mul_right _ hlow) (by decide)

/-- In 30 bits the mask clears only what the shift drops anyway. -/
theorem low25_shiftLeft (c : Chk) : (c &&& 0x1ffffff#30) <<< 5 = c <<< 5 := by
  have hmask : c.toNat &&& 0x1ffffff = c.toNat % 2 ^ 25 := Nat.and_two_pow_sub_one_eq_mod _ 25
  apply BitVec.eq_of_toNat_eq
  rw [low25_shiftLeft_toNat, hmask, BitVec.toNat_shiftLeft, Nat.shiftLeft_eq, Nat.shiftLeft_eq]
  omega

/-- The five bits above the low 25. -/
theorem topFive_toNat (c : Chk) : (c.extractLsb' 25 5).toNat = c.toNat >>> 25 := by
  have := c.isLt
  rw [BitVec.extractLsb'_toNat, Nat.mod_eq_of_lt]
  rw [Nat.shiftRight_eq_div_pow]
  omega

/-! ### Linearity (R82) -/

theorem genSum_xor (a b : Symbol) (i : Nat) (gs : List Chk) :
    genSum (a ^^^ b) i gs = genSum a i gs ^^^ genSum b i gs := by
  induction gs generalizing i with
  | nil => simp [genSum]
  | cons g gs ih =>
    have hbit (p q : Bool) : (if p ^^ q then g else 0#30) = (if p then g else 0#30) ^^^ (if q then g else 0#30) := by
      cases p <;> cases q <;> simp
    rw [genSum, genSum, genSum, ih, BitVec.getLsbD_xor, hbit]
    ac_rfl

theorem polymodStep_xor (a b : Chk) (u v : Symbol) :
    polymodStep (a ^^^ b) (u ^^^ v) = polymodStep a u ^^^ polymodStep b v := by
  simp only [polymodStep, low25_shiftLeft, BitVec.shiftLeft_xor_distrib, BitVec.setWidth_xor, BitVec.extractLsb'_xor,
    genSum_xor]
  ac_rfl

/-- Values fed to `c ^^^ e` give what zeros fed to `c` give, XOR what the values fed to `e` give. -/
theorem polymodFrom_xor_state (c e : Chk) (xs : List Symbol) :
    polymodFrom (c ^^^ e) xs = polymodFrom c (List.replicate xs.length 0#5) ^^^ polymodFrom e xs := by
  induction xs generalizing c e with
  | nil => rfl
  | cons x xs ih =>
    have hstep : polymodStep (c ^^^ e) x = polymodStep c 0#5 ^^^ polymodStep e x := by
      simpa using polymodStep_xor c e 0#5 x
    exact (congrArg (polymodFrom · xs) hstep).trans (ih _ _)

/-! ### Six values fed to the zero state -/

/-- With its top five bits clear, the state takes in the next five bits of a word and reduces nothing. -/
theorem polymodStep_shiftRight (w : Chk) (k : Nat) :
    polymodStep (w >>> (k + 5)) (w.extractLsb' k 5) = w >>> k := by
  have htop : (w >>> (k + 5)).extractLsb' 25 5 = 0#5 := by
    ext i hi
    simp [BitVec.getLsbD_of_ge w (k + 5 + (25 + i)) (by omega)]
  have hsum : genSum 0#5 0 gen = 0#30 := by decide
  rw [polymodStep, low25_shiftLeft, htop, hsum, BitVec.xor_zero]
  ext i hi
  rcases Nat.lt_or_ge i 5 with h | h
  · simp [h]
  · have hk : k + 5 + (i - 5) = k + i := by omega
    simp [Nat.not_lt.2 h, hk]

/-- From the zero state, the six fields of a word spell the word. -/
theorem polymodFrom_zero_sixSymbols (w : Chk) : polymodFrom 0#30 (sixSymbols w) = w := by
  have h := polymodStep_shiftRight w
  have hstart : w >>> 30 = 0#30 := BitVec.ushiftRight_eq_zero (le_refl 30)
  rw [← hstart]
  simp only [polymodFrom, sixSymbols, List.foldl, h 25, h 20, h 15, h 10, h 5, h 0, BitVec.ushiftRight_zero]

/-- A state's own checksum symbols leave the residue 1 (R82). -/
theorem polymodFrom_checksumSymbols_finalise (c : Chk) :
    polymodFrom c (checksumSymbols (finalise c)) = 1#30 := by
  have hlin := polymodFrom_xor_state c 0#30 (sixSymbols (finalise c))
  rw [BitVec.xor_zero, polymodFrom_zero_sixSymbols] at hlin
  rw [← sixSymbols_eq, hlin, finalise, ← BitVec.xor_assoc]
  exact (congrArg (· ^^^ 1#30) BitVec.xor_self).trans BitVec.zero_xor

/-- The source's checksum of a prefix and a payload finalises their polymod (R79, R81). -/
theorem checksum_eq_finalise (h : List HrpChar) (d : List Symbol) :
    checksum h d = finalise (polymodFrom 1#30 (hrpExpand h ++ d)) := by
  rw [checksum, finalise, ← polymodFrom_append]

/-! ### Delivering symbols -/

/-- SYM where it is legal and one item fits (R87). -/
theorem exec_sym {s : State} {x : Symbol} (hl : s.phase ∈ legalPhases .sym s.route)
    (hroom : s.fifo.length < s.params.outDepth) :
    exec (.sym x) s = .next { s with chk := polymodStep s.chk x, fifo := s.fifo ++ [mapSymbol x] } :=
  exec_ok (by simp) trivial hl (push_ok hroom)

/-- SYMs, with room for their items. -/
theorem execAll_syms {s : State} {xs : List Symbol} (hl : s.phase ∈ legalPhases .sym s.route)
    (hroom : s.fifo.length + xs.length ≤ s.params.outDepth) :
    execAll (xs.map .sym) s =
      .next { s with chk := polymodFrom s.chk xs, fifo := s.fifo ++ xs.map mapSymbol } := by
  induction xs generalizing s with
  | nil => simp [execAll, polymodFrom]
  | cons x xs ih =>
    rw [List.length_cons] at hroom
    have hrest : (s.fifo ++ [mapSymbol x]).length + xs.length ≤ s.params.outDepth := by simp; omega
    rw [List.map_cons, execAll_cons (exec_sym hl (by omega)),
      ih (s := { s with chk := polymodStep s.chk x, fifo := s.fifo ++ [mapSymbol x] }) hl hrest]
    simp [polymodFrom]

/-! ### The statements -/

/-- Settles O29: each operation of the step is its counterpart on numbers. -/
theorem polymodStepOnNaturals : Obligations.PolymodStepOnNaturals := by
  intro c v b g
  have hv : (v.setWidth 30).toNat = v.toNat := BitVec.toNat_setWidth_of_le (by decide)
  rw [polymodStep, BitVec.toNat_xor, BitVec.toNat_xor, low25_shiftLeft_toNat, hv]
  simp only [genSum_gen_toNat, topFive_toNat, Nat.xor_assoc, b, g]

/-- Settles O31: by linearity the six symbols add the finalised checksum itself to the polymod of six zeros. -/
theorem checksumFedBackLeavesOne : Obligations.ChecksumFedBackLeavesOne := by
  intro s h d hI hr hp hchk hroom
  have hl : s.phase ∈ legalPhases .sym s.route := by simp [hr, hp, legalPhases]
  refine ⟨_, execAll_syms hl (by simpa [checksumSymbols] using hroom), ?_, hp, hI.err_of_phase (by simp [hp])⟩
  rw [checksum_eq_finalise, ← hchk]
  exact polymodFrom_checksumSymbols_finalise s.chk

end Sys2Proof.Machine
end

section
/-! Proof of the statement about the mapper (42_mapper.md): the alphabet as a list of 32 codes (R83), and `mapSymbol` as
its entry at the symbol's value (R84). -/

namespace Sys2Proof.Machine

/-! ### The alphabet (R83) -/

theorem alphabet_length : alphabet.length = 32 := rfl

theorem alphabet_nodup : alphabet.Nodup := by decide

/-- What every code of the alphabet is: a lower-case letter or a digit, and none of `1`, `b`, `i` and `o`. -/
theorem mem_alphabet {a : Byte} (h : a ∈ alphabet) :
    a ∉ [0x31#8, 0x62#8, 0x69#8, 0x6f#8] ∧
      (0x61 ≤ a.toNat ∧ a.toNat ≤ 0x7a ∨ 0x30 ≤ a.toNat ∧ a.toNat ≤ 0x39) := by
  revert a
  decide

/-! ### `Map` (R84) -/

theorem toNat_lt_alphabet_length (v : Symbol) : v.toNat < alphabet.length := alphabet_length ▸ v.isLt

/-- The default of the look-up is never met. -/
theorem mapSymbol_eq_getElem (v : Symbol) :
    mapSymbol v = alphabet[v.toNat]'(toNat_lt_alphabet_length v) :=
  List.getD_eq_getElem _ _ _

theorem mapSymbol_mem_alphabet (v : Symbol) : mapSymbol v ∈ alphabet :=
  mapSymbol_eq_getElem v ▸ List.getElem_mem _

theorem mapSymbol_injective : Function.Injective mapSymbol := by
  intro u v h
  rw [mapSymbol_eq_getElem, mapSymbol_eq_getElem, alphabet_nodup.getElem_inj_iff] at h
  exact BitVec.eq_of_toNat_eq h

/-! ### The statement -/

/-- Settles O40: the table is compared row by row; the rest holds because `mapSymbol` looks up a list of 32 distinct
letters and digits. -/
theorem mapIsTheAlphabet : Obligations.MapIsTheAlphabet := by
  refine ⟨?rows, fun _ _ h => mapSymbol_injective h, fun v => mem_alphabet (mapSymbol_mem_alphabet v)⟩
  case rows => decide

end Sys2Proof.Machine
end

section
/-! Proofs of the statements about the control commands (43_control.md): NOP and CLR in every phase, CFG in IDLE, and
what the other words of their opcodes raise. -/

namespace Sys2Proof.Machine

/-! ### The words of the control commands -/

/-- Every command's word has the layout of R52. -/
theorem wordLayout (i : Instr) : Laws.WordLayout.Statement i := by
  cases i with
  | nop => exact Laws.WordLayout.nop
  | clr => exact Laws.WordLayout.clr
  | cfg c => exact Laws.WordLayout.cfg c
  | hrp v => exact Laws.WordLayout.hrp v
  | sep => exact Laws.WordLayout.sep
  | din v => exact Laws.WordLayout.din v
  | sym x => exact Laws.WordLayout.sym x
  | flush => exact Laws.WordLayout.flush
  | fin => exact Laws.WordLayout.fin

/-- Encoding loses nothing of a well-formed command. -/
theorem decode_encode {i : Instr} (hw : i.WellFormed) : decode (encode i) = .ok i := by
  obtain ⟨hhigh, hmid, hop, himm, hoperand⟩ := wordLayout i
  exact (decode_eq_ok_iff _ i).2 ⟨i.op, hop ▸ opOf_opBits i.op, ⟨hhigh, hmid⟩, himm ▸ hoperand hw⟩

/-- The word of a well-formed command runs it (R62). -/
theorem execute_encode {i : Instr} (hw : i.WellFormed) (s : State) : execute (encode i) s = exec i s := by
  simp only [execute, decode_encode hw]

theorem encode_nop : encode .nop = 0x00000000#32 := rfl

theorem encode_cfg (c : BitVec 3) : encode (.cfg c) = BitVec.ofNat 32 (0x00002000 + c.toNat) := by
  revert c; decide

/-! ### Words of their opcodes that are no command -/

/-- The one well-formed word of an opcode of format Z has no bit outside OP (R53, R56). -/
theorem toNat_of_formatZ {w : Word} (hw : WordWellFormed w) (hz : opNumber w ∈ [0, 1, 4, 7, 8]) :
    w.toNat = 4096 * opNumber w := by
  obtain ⟨hhigh, hmid, himm, -, -⟩ := hw
  have := himm hz
  unfold opNumber
  omega

/-- An ill-formed word of a known opcode, outside ERR (R57(b)). -/
theorem execute_illegalOperand {w : Word} {s : State} (h : opNumber w ≤ 8) (hw : ¬ WordWellFormed w)
    (hp : s.phase ≠ .err) : execute w s = .next (raise .illegalOperand s) :=
  execute_illegal (decode_illegalOperand h hw) hp

/-- Under an opcode `n` of format Z, every word but `4096 * n` raises ILLEGAL_OPERAND outside ERR. -/
theorem execute_formatZ_illegalOperand {w : Word} {s : State} {n : Nat} (hn : n ∈ [0, 1, 4, 7, 8])
    (hop : opNumber w = n) (hw : w ≠ BitVec.ofNat 32 (4096 * n)) (hp : s.phase ≠ .err) :
    execute w s = .next (raise .illegalOperand s) := by
  subst hop
  refine execute_illegalOperand ((by decide : ∀ n ∈ [0, 1, 4, 7, 8], n ≤ 8) _ hn) (fun hwf => hw ?_) hp
  rw [← toNat_of_formatZ hwf hn, BitVec.ofNat_toNat, BitVec.setWidth_eq]

/-! ### What the commands do -/

/-- NOP is in every row of the table, and ERR ignores it (R90). -/
theorem exec_nop (s : State) : exec .nop s = .next s := by
  by_cases hp : s.phase = .err
  · exact exec_in_err hp (by decide)
  · exact exec_ok (by decide) trivial (mem_legalPhases_clr hp s.route) rfl

/-- CFG in IDLE (R92). -/
theorem exec_cfg {c : BitVec 3} {s : State} (hc : CfgLegal c) (hp : s.phase = .idle) :
    exec (.cfg c) s = .next { s with cfg := c } :=
  exec_ok (by simp) hc (by simp [hp, Instr.op, legalPhases]) rfl

/-- The empty session that CLR opens reads as STATUS 0 (R31, R91). -/
theorem statusWord_doClr (s : State) : statusWord (doClr s) = 0#32 := by
  simp [statusWord, phaseBits, errBits]

/-! ### The statements -/

/-- Settles O21: NOP is legal in every phase but ERR, and 0 is the one well-formed word of OP 0. -/
theorem nopDoesNothing : Obligations.NopDoesNothing := by
  refine ⟨fun s => ⟨exec_nop s, ?word⟩, fun s w hop hw hp => ?illegal, State.reset, exec_nop _, rfl⟩
  case word => rw [← encode_nop, execute_encode trivial, exec_nop]
  case illegal => exact execute_formatZ_illegalOperand (by simp) hop hw hp

/-- Settles O22: CLR is `doClr` in every phase, and 0x1000 is the one well-formed word of OP 1. -/
theorem clrOpensANewSession : Obligations.ClrOpensANewSession := by
  refine ⟨fun s => ⟨doClr s, exec_clr s, rfl, statusWord_doClr s, ?word⟩, fun s w hop hw => ?other⟩
  case word => rw [← encode_clr, execute_encode trivial]
  case other =>
    split
    next hp => exact execute_in_err hp hw
    next hp => exact execute_formatZ_illegalOperand (by simp) hop hw hp

/-- Settles O23: the table lists CFG in IDLE alone, and the operand clause of R56 is what the decoder refuses. -/
theorem cfgSetsTheConfiguration : Obligations.CfgSetsTheConfiguration := by
  refine ⟨fun s c hc hp => ⟨exec_cfg hc hp, ?word⟩, fun s w hop hp hbad => ?operand, fun s c hc hidle hp => ?phase⟩
  case word => rw [← encode_cfg, execute_encode hc]
  case operand =>
    refine execute_illegalOperand (by omega) (fun ⟨_, _, _, hcfg, _⟩ => ?_) hp
    obtain ⟨hhigh, hlow⟩ := hcfg hop
    simp only [List.mem_cons, List.not_mem_nil] at hlow
    omega
  case phase => exact exec_sequence hp hc (by simpa [Instr.op, legalPhases] using hidle)

end Sys2Proof.Machine
end

section
/-! Proofs of the statements about the errors (60_exceptions.md): what a raise does (R94), what the phase ERR ignores
(R95), and the two ways out of it (R96). -/

namespace Sys2Proof.Machine

/-! ### Entering ERR (R94) -/

/-- A word that enters ERR raised an error in the state it started from, a command or not. -/
theorem execute_raised {w : Word} {s t : State} (h : execute w s = .next t) (hp : s.phase ≠ .err)
    (ht : t.phase = .err) : ∃ e, e ≠ .noError ∧ t = raise e s := by
  cases hd : decode w with
  | ok i =>
    simp only [execute, hd] at h
    exact exec_raised h hp ht
  | error e =>
    rw [execute_illegal hd hp] at h
    cases h
    exact ⟨decodeErrCode e, by cases e <;> decide, rfl⟩

/-- The code of `err` is `STATUS[7:4]` (R31). -/
theorem statusWord_err {s : State} (h : s.fifo.length < 2 ^ 8) :
    (statusWord s).toNat / 16 % 16 = (errBits s.err).toNat := by
  have hphase := (phaseBits s.phase).isLt
  have herr := (errBits s.err).isLt
  rw [statusWord_toNat h]
  omega

/-! ### In ERR (R95) -/

/-- With an empty FIFO no register read has a side effect: OUT has nothing to pop (R33). -/
theorem busRead_of_fifo_nil {s : State} (h : s.fifo = []) (r : Reg) :
    busRead r s = { s with readBack := s.readBack ++ [regValue r s] } := by
  by_cases hr : r = .out
  · subst hr; simp [busRead_out, h]
  · exact busRead_of_ne_out hr s

/-- The word of CLR opens a new session in every phase (R91). -/
theorem execute_clr (s : State) : execute 0x00001000#32 s = .next (doClr s) := by
  rw [← encode_clr, execute_encode trivial, exec_clr]

/-! ### Leaving ERR (R96) -/

theorem step_nil {s : State} (h : s.pending = []) : step s = .next s := by
  simp only [step, serveNext, h]

theorem step_cons {s : State} {a : Access} {rest : List Access} (h : s.pending = a :: rest) :
    step s = hostAccess a { s with pending := rest } := by
  simp only [step, serveNext, h]

/-- The host's next access opens a new session: a reset, or a CMD write of the word of CLR. -/
def AsksNewSession (s : State) : Prop :=
  ∃ rest, s.pending = .reset :: rest ∨
    ∃ a, s.pending = .write a 4 0x00001000#32 :: rest ∧ s.params.base ≤ a ∧ a < s.params.base + 4

/-- A write to any byte address of CMD executes its word (R30, R42). -/
theorem hostAccess_write_cmd {s : State} {a : Nat} (hlow : s.params.base ≤ a) (hhigh : a < s.params.base + 4)
    (v : Word) : hostAccess (.write a 4 v) s = execute v s := by
  obtain ⟨off, rfl⟩ := Nat.exists_eq_add_of_le hlow
  have hoff : off < 4 := by omega
  rw [hostAccess_write_inside s (by omega), (regAt_cmd (by omega)).2 hoff, busWrite]

/-- Such an access is answered by reset or by CLR, in every phase. -/
theorem step_of_asksNewSession {s t : State} (hs : step s = .next t) (h : AsksNewSession s) :
    ∃ rest, t = doReset { s with pending := rest } ∨ t = doClr { s with pending := rest } := by
  obtain ⟨rest, hq | ⟨a, hq, hlow, hhigh⟩⟩ := h <;> rw [step_cons hq] at hs
  · cases hs
    exact ⟨rest, .inl rfl⟩
  · rw [hostAccess_write_cmd (s := { s with pending := rest }) hlow hhigh, execute_clr] at hs
    cases hs
    exact ⟨rest, .inr rfl⟩

/-- Every other step from ERR stays there with the first error's code (R95). -/
theorem step_in_err {s t : State} (hp : s.phase = .err) (hs : step s = .next t) (h : ¬ AsksNewSession s) :
    t.phase = .err ∧ t.err = s.err := by
  cases hq : s.pending with
  | nil =>
    rw [step_nil hq] at hs
    cases hs
    exact ⟨hp, rfl⟩
  | cons a rest =>
    rw [step_cons hq] at hs
    rcases hostAccess_cases hs with ⟨rfl, -⟩ | ⟨_, r, -, -, rfl⟩ | ⟨ad, v, rfl, hlow, hhigh, hv⟩ | rfl
    · exact absurd ⟨rest, .inl hq⟩ h
    · simp [hp]
    · have hne : v ≠ 0x00001000#32 := by
        rintro rfl
        exact h ⟨rest, .inr ⟨ad, hq, hlow, hhigh⟩⟩
      rw [execute_in_err (s := { s with pending := rest }) hp hne] at hv
      cases hv
      exact ⟨hp, rfl⟩
    · exact ⟨hp, rfl⟩

/-! ### The statements -/

/-- Settles O7: a word that enters ERR ends in `raise` on the state it started from. -/
theorem raiseHasNoOtherEffect : Obligations.RaiseHasNoOtherEffect := by
  intro s t w hp h ht
  obtain ⟨e, he, rfl⟩ := execute_raised h hp ht
  exact ⟨rfl, he, statusWord_err (by simp), fun w' hw' => execute_in_err rfl hw'⟩

/-- Settles O8: the invariant empties the FIFO in ERR, so that no read pops an item. -/
theorem errorPhaseIgnoresAllButClr : Obligations.ErrorPhaseIgnoresAllButClr := by
  intro s hI hp
  have hfifo : s.fifo = [] := hI.err_fifo hp
  refine ⟨fun w hw => execute_in_err hp hw, ⟨doClr s, execute_clr s, rfl, rfl⟩, busRead_of_fifo_nil hfifo, ?_⟩
  simp only [regValue, hfifo]

/-- Settles O9: an access that opens a new session leads to IDLE, and every other step stays in ERR. -/
theorem onlyClrOrResetLeavesError : Obligations.OnlyClrOrResetLeavesError := by
  intro s t _ hp hs
  by_cases h : AsksNewSession s
  · obtain ⟨rest, rfl | rfl⟩ := step_of_asksNewSession hs h <;>
      exact ⟨iff_of_true (by simp) h, by simp, by simp⟩
  · obtain ⟨hphase, herr⟩ := step_in_err hp hs h
    exact ⟨iff_of_false (not_not.2 hphase) h, fun hne => absurd hphase hne, fun _ => herr⟩

end Sys2Proof.Machine
end

section
/-! Proofs of the statements about the whole machine and its commands' effects: decode and encode as inverses and the
order of dispatch (30_encoding.md), the host's accesses (20_memory.md), what HRP, SEP, DIN, FLUSH, SYM and FIN do and
raise (40_converter.md to 42_mapper.md), what a command may push and write (R16 to R23, R50, R114), the address that an
ENC session shows (R81, R86, R110), and that the hidden characters of `hrp_buf` show nowhere (R14). -/

namespace Sys2Proof.Machine

/-! ### Words and the commands they spell (30_encoding.md) -/

/-- Decoding answers well-formed commands only (R56). -/
theorem wellFormed_of_decode {w : Word} {i : Instr} (h : decode w = .ok i) : i.WellFormed := by
  obtain ⟨op, -, -, hi⟩ := (decode_eq_ok_iff w i).1 h
  exact ((withOperand_iff op _ i).1 hi).1

theorem decode_eq_ok_iff_encode (w : Word) (i : Instr) : decode w = .ok i ↔ i.WellFormed ∧ encode i = w := by
  constructor
  · exact fun h => ⟨wellFormed_of_decode h, encode_of_decode h⟩
  · rintro ⟨hw, rfl⟩
    exact decode_encode hw

/-! ### The host's accesses (20_memory.md) -/

/-- The access that delivers a command runs it. -/
theorem hostAccess_cmdWrite {i : Instr} (hw : i.WellFormed) (s : State) :
    hostAccess (cmdWrite s.params (encode i)) s = exec i s := by
  rw [cmdWrite, hostAccess_write_cmd (le_refl _) (by omega), execute_encode hw]

/-- An access of another size than 4 bytes has no step, at any address (R42). -/
theorem hostAccess_size_ne_four {size : Nat} (h : size ≠ 4) (a : Nat) (s : State) :
    hostAccess (.read a size) s = .refused (.accessSize size) ∧
      ∀ v, hostAccess (.write a size v) s = .refused (.accessSize size) := by
  simp [hostAccess, h]

theorem regOfAddr_outside {p : Params} {a : Nat} (h : a < p.base ∨ p.base + 32 ≤ a) : regOfAddr p a = none := by
  rw [regOfAddr, if_neg (by omega)]

/-- The addresses of OUT (R29, R42). -/
theorem addr_of_regOfAddr_out {p : Params} {a : Nat} (h : regOfAddr p a = some .out) :
    p.base + 0x0C ≤ a ∧ a < p.base + 0x10 := by
  unfold regOfAddr at h
  split at h
  · have := (regAt_out (by omega)).1 (Option.some.inj h)
    omega
  · cases h

/-- A read changes the block only when it takes an item from OUT (R33, R44). -/
theorem busRead_of_no_pop {r : Reg} {s : State} (h : ¬ (r = .out ∧ s.fifo ≠ [])) :
    busRead r s = { s with readBack := s.readBack ++ [regValue r s] } := by
  by_cases hr : r = .out
  · exact busRead_of_fifo_nil (by simpa [hr] using h) r
  · exact busRead_of_ne_out hr s

/-- All 32 bits of a word are placed as the next command. -/
theorem tableWord_toNat (w : Word) : tableWord 32 w.toNat = w := by
  rw [tableWord, Nat.mod_eq_of_lt w.isLt, BitVec.ofNat_toNat, BitVec.setWidth_eq]

/-- The word placed by `deliver` is executed by the next step, in the state it was placed in. -/
theorem step_deliver (w : Word) (s : State) : step (deliver w s) = execute w s := by
  rw [step_cons (deliver_pending w s), cmdWrite]
  exact hostAccess_write_cmd (le_refl _) (by omega) w

theorem run_succ {M : Host.Core} {s t : M.State} (h : M.step s = .next t) (n : Nat) : M.run (n + 1) s = M.run n t := by
  simp only [Host.Core.run, h]

/-! ### What a command can do, in short -/

/-- A command's rule succeeded, or it raised an error, or it was ignored. -/
theorem exec_outcome {i : Instr} {s t : State} (h : exec i s = .next t) :
    ruleOf i s = .ok t ∨ (∃ e, t = raise e s) ∨ t = s := by
  rcases exec_cases h with ⟨rfl, rfl⟩ | ⟨-, -, rfl⟩ | ⟨-, -, -, rfl⟩ | ⟨-, -, -, -, rfl⟩ | ⟨-, -, -, hok | ⟨e, -, rfl⟩⟩
  · exact .inl rfl
  · exact .inr (.inr rfl)
  · exact .inr (.inl ⟨_, rfl⟩)
  · exact .inr (.inl ⟨_, rfl⟩)
  · exact .inl hok
  · exact .inr (.inl ⟨e, rfl⟩)

/-- NOP is the one command that writes no field at all (R90). -/
theorem eq_nop_of_op_not_mem {i : Instr}
    (h : i.op ∉ [Op.cfg, Op.hrp, Op.sep, Op.din, Op.sym, Op.flush, Op.fin, Op.clr]) : i = .nop := by
  cases i <;> simp_all [Instr.op]

/-! ### Assembler lines (30_encoding.md R60) -/

theorem wellFormed_of_lineCommand {l : Line} {i : Instr} (h : lineCommand l = some i) : i.WellFormed := by
  cases i with
  | cfg c =>
    cases l with
    | cfg r d pad =>
      obtain ⟨hlegal, hc⟩ := Option.ite_none_right_eq_some.1 h
      cases hc
      exact hlegal
    | _ => simp [lineCommand, Option.bind_eq_some_iff] at h
  | _ => trivial

/-- A line that spells a command assembles to the CMD write of its word. -/
theorem assemble_of_lineCommand {l : Line} {i : Instr} (h : lineCommand l = some i) (p : Params) :
    assemble p l = some (cmdWrite p (encode i)) := by
  cases l with
  | rd r => cases h
  | wr w => cases h
  | _ => simp only [assemble, h, Option.map_some]

/-! ### The prefix (41_checksum.md R76 to R78) -/

/-- Writing the entry at `n` appends to the `n` entries before it. -/
theorem take_succ_set {α : Type} {l : List α} {n : Nat} (h : n < l.length) (a : α) :
    (l.set n a).take (n + 1) = l.take n ++ [a] := by
  rw [List.take_succ_eq_append_getElem (by simpa using h), List.getElem_set_self,
    List.take_set_of_le (le_refl n)]

/-- The prefix length does not wrap round below `HRP_MAX` (R6, R21). -/
theorem Inv.hrpLen_succ_toNat {s : State} (hI : Inv s) (hlen : s.hrpLen.toNat ≠ s.params.hrpMax) :
    (s.hrpLen + 1#8).toNat = s.hrpLen.toNat + 1 := by
  obtain ⟨-, hmax, -⟩ := hI.params
  have := hI.hrp_le
  simp
  omega

/-- The prefix with one more character, as HRP writes it (R77). -/
def State.withHrp (s : State) (c : HrpChar) : State :=
  { s with hrpBuf := s.hrpBuf.set s.hrpLen.toNat c, hrpLen := s.hrpLen + 1#8, phase := .hrp }

theorem withHrp_hrpChars {s : State} (hI : Inv s) (hlen : s.hrpLen.toNat ≠ s.params.hrpMax) (c : HrpChar) :
    (s.withHrp c).hrpChars = s.hrpChars ++ [c] := by
  have hlt : s.hrpLen.toNat < s.hrpBuf.length := by
    have := hI.hrp_le
    have := hI.buf_len
    omega
  rw [State.hrpChars, State.withHrp, hI.hrpLen_succ_toNat hlen, take_succ_set hlt, State.hrpChars]

theorem legal_hrp_of_enc {s : State} (hr : s.route = .enc) (hp : s.phase = .idle ∨ s.phase = .hrp) :
    s.phase ∈ legalPhases .hrp s.route := by
  simp [hr, legalPhases, hp]

/-- HRP where it is legal, of a character code, with room in the buffer (R77). -/
theorem exec_hrp {s : State} {v : Byte} (hl : s.phase ∈ legalPhases .hrp s.route) (hv : v.toNat < 0x80)
    (hlen : s.hrpLen.toNat ≠ s.params.hrpMax) : exec (.hrp v) s = .next (s.withHrp (v.setWidth 7)) := by
  have hv : hrpCharIllegal v = false := by simpa [hrpCharIllegal] using hv
  refine exec_ok (by simp) trivial hl ?_
  simp [ruleOf, hrpRule, hv, hlen, State.withHrp]

/-- The expansion of the prefix in numbers (R76). -/
theorem hrpExpand_eq (h : List HrpChar) :
    hrpExpand h = h.map (fun c => BitVec.ofNat 5 (c.toNat / 32)) ++ [0#5] ++
      h.map (fun c => BitVec.ofNat 5 (c.toNat % 32)) := by
  have hhigh : ∀ c : HrpChar, (c >>> 5).setWidth 5 = BitVec.ofNat 5 (c.toNat / 32) := by decide
  have hlow : ∀ c : HrpChar, c.setWidth 5 = BitVec.ofNat 5 (c.toNat % 32) := by decide
  simp only [hrpExpand, hhigh, hlow]

/-- The state after a SEP that has room (R78). -/
def State.withSep (s : State) : State :=
  { s with
    chk := polymodFrom s.chk (hrpExpand s.hrpChars)
    fifo := s.fifo ++ (s.hrpChars.map (fun c => c.setWidth 8) ++ [separator])
    phase := .data }

section
variable {s : State} (hl : s.phase ∈ legalPhases .sep s.route)
include hl

theorem exec_sep (hroom : s.fifo.length + (s.hrpChars.length + 1) ≤ s.params.outDepth) :
    exec .sep s = .next s.withSep :=
  exec_ok (by simp) trivial hl (push_ok (by simpa using hroom))

theorem exec_sep_overflow (hroom : s.params.outDepth < s.fifo.length + (s.hrpChars.length + 1)) :
    exec .sep s = .next (raise .overflow s) :=
  exec_error (by simp) trivial hl (push_overflow (by simpa using hroom))

end

/-! ### Ending the payload (40_converter.md R66, 41_checksum.md R80) -/

/-- The bits left in the converter can be represented: with padding, or as fewer than `from` zeros (R66). -/
def State.Flushable (s : State) : Prop :=
  s.pad = true ∨ s.cnt.toNat < fromBits s.dir ∧ s.acc.toNat % 2 ^ s.cnt.toNat = 0

/-- The padded last chunk, if there is one (R66). -/
def State.lastChunk (s : State) : List Nat :=
  if s.pad = true ∧ 0 < s.cnt.toNat then
    [s.acc.toNat % 2 ^ s.cnt.toNat * 2 ^ (toBits s.dir - s.cnt.toNat)] else []

theorem convFlushOf_of_flushable {s : State} (hc : s.cnt.toNat < toBits s.dir) (h : s.Flushable) :
    s.convFlushOf = some s.lastChunk :=
  (convFlush_eq hc).trans (if_pos h)

theorem convFlushOf_of_not_flushable {s : State} (hc : s.cnt.toNat < toBits s.dir) (h : ¬ s.Flushable) :
    s.convFlushOf = none :=
  (convFlush_eq hc).trans (if_neg h)

/-- On the ENC route fewer bits are buffered than a byte has, so only their value matters. -/
theorem flushable_iff_of_enc {s : State} (hI : Inv s) (hr : s.route = .enc) :
    s.Flushable ↔ s.pad = true ∨ s.acc.toNat % 2 ^ s.cnt.toNat = 0 := by
  have hc := hI.cnt_lt
  rw [dir_of_enc hI hr] at hc
  have hfrom : s.cnt.toNat < fromBits s.dir := by
    rw [dir_of_enc hI hr]
    exact lt_trans hc (by decide)
  simp [State.Flushable, hfrom]

theorem lastChunk_of_enc {s : State} (hI : Inv s) (hr : s.route = .enc) :
    s.lastChunk = if s.pad = true ∧ 0 < s.cnt.toNat then
      [s.acc.toNat % 2 ^ s.cnt.toNat * 2 ^ (5 - s.cnt.toNat)] else [] := by
  rw [State.lastChunk, dir_of_enc hI hr, toBits]

/-- The checksum that FIN outputs after the last chunks `cs` (R79, R80). -/
def State.finChk (s : State) (cs : List Nat) : Chk :=
  polymodFrom s.chk (cs.map (BitVec.ofNat 5) ++ List.replicate 6 0#5) ^^^ 1#30

/-- The items that FIN pushes: the last chunks' characters and the checksum's (R80). -/
def State.finItems (s : State) (cs : List Nat) : List Byte :=
  (cs.map (BitVec.ofNat 5) ++ checksumSymbols (s.finChk cs)).map mapSymbol

@[simp] theorem finItems_length (s : State) (cs : List Nat) : (s.finItems cs).length = cs.length + 6 := by
  simp [State.finItems, checksumSymbols]

/-- The state after a FIN whose last chunks are `cs` (R80). -/
def State.finished (s : State) (cs : List Nat) : State :=
  { s with acc := 0#12, cnt := 0#4, chk := s.finChk cs, fifo := s.fifo ++ s.finItems cs, phase := .done }

section
variable {s : State} {cs : List Nat} (hl : s.phase ∈ legalPhases .fin s.route)
include hl

theorem exec_fin_some (h : s.convFlushOf = some cs) (hroom : s.fifo.length + (cs.length + 6) ≤ s.params.outDepth) :
    exec .fin s = .next (s.finished cs) := by
  refine exec_ok (by simp) trivial hl ((finRule_some h).trans (push_ok ?_))
  simpa [checksumSymbols] using hroom

theorem exec_fin_overflow (h : s.convFlushOf = some cs)
    (hroom : s.params.outDepth < s.fifo.length + (cs.length + 6)) : exec .fin s = .next (raise .overflow s) := by
  refine exec_error (by simp) trivial hl ((finRule_some h).trans (push_overflow ?_))
  simpa [checksumSymbols] using hroom

theorem exec_fin_none (h : s.convFlushOf = none) : exec .fin s = .next (raise .reject s) :=
  exec_error (by simp) trivial hl (finRule_reject h)

end

/-- FLUSH of a chunk that does not fit (R69). -/
theorem exec_flush_overflow {s : State} {cs : List Nat} (hl : s.phase ∈ legalPhases .flush s.route)
    (h : s.convFlushOf = some cs) (hroom : s.params.outDepth < s.fifo.length + cs.length) :
    exec .flush s = .next (raise .overflow s) := by
  refine exec_error (by simp) trivial hl ((flushRule_some h).trans (push_overflow ?_))
  simpa using hroom

/-! ### What a command pushes (10_state.md R22, 70_reset_and_hazards.md R114) -/

/-- FLUSH and FIN convert at most one chunk (R66, R73). -/
theorem convFlushOf_length_le {s : State} {cs : List Nat} (hc : s.cnt.toNat < toBits s.dir)
    (h : s.convFlushOf = some cs) : cs.length ≤ 1 := by
  rw [convFlushOf_length hc h]
  split <;> simp

/-- A value that passes DIN's check fits `from` (R64, R68). -/
theorem lt_of_not_dinOutOfRange {d : Dir} {v : Byte} (h : dinOutOfRange d v = false) : v.toNat < 2 ^ fromBits d := by
  cases d with
  | eightToFive => exact v.isLt
  | fiveToEight => simpa [dinOutOfRange, fromBits] using h

/-- DIN gives at most as many chunks as the table says (R73, R114). -/
theorem din_chunks_le {s : State} {v : Byte} (hc : s.cnt.toNat < toBits s.dir) (hv : v.toNat < 2 ^ fromBits s.dir) :
    (convPush s.acc.toNat s.cnt.toNat v.toNat (fromBits s.dir) (toBits s.dir)).chunks.length ≤
      maxItems (.din v) s := by
  have hn : s.cnt.toNat + fromBits s.dir ≤ 12 := by
    cases hd : s.dir <;> simp only [hd, fromBits, toBits] at * <;> omega
  rw [(convPush_chunks hv (toBits_pos _) hn).1, wholeChunks_length]
  cases hd : s.dir <;> simp only [hd, fromBits, toBits, maxItems] at * <;> omega

/-- A command's rule fails without a push, or succeeds without one, or is the push of items that the table allows. -/
theorem ruleOf_push_cases {i : Instr} (hi : i ≠ .clr) (s : State) :
    (∃ e, e ≠ .overflow ∧ ruleOf i s = .error e) ∨
    (∃ t, ruleOf i s = .ok t ∧ t.fifo = s.fifo) ∨
    (∃ items t, ruleOf i s = push items t ∧ t.fifo = s.fifo ∧ t.params = s.params ∧
      (s.cnt.toNat < toBits s.dir → items.length ≤ maxItems i s)) := by
  cases i with
  | nop => exact .inr (.inl ⟨_, rfl, rfl⟩)
  | clr => exact absurd rfl hi
  | cfg c => exact .inr (.inl ⟨_, rfl, rfl⟩)
  | hrp v =>
    simp only [ruleOf, hrpRule]
    split_ifs
    · exact .inl ⟨_, by simp, rfl⟩
    · exact .inl ⟨_, by simp, rfl⟩
    · exact .inr (.inl ⟨_, rfl, rfl⟩)
  | sep => exact .inr (.inr ⟨_, _, rfl, rfl, rfl, by simp [maxItems, State.hrpChars]⟩)
  | sym x => exact .inr (.inr ⟨_, _, rfl, rfl, rfl, by simp [maxItems]⟩)
  | din v =>
    cases hr : dinOutOfRange s.dir v with
    | true => exact .inl ⟨_, by simp, dinRule_range hr⟩
    | false =>
      refine .inr (.inr ⟨_, _, dinRule_inRange hr, rfl, rfl, fun hc => ?_⟩)
      rw [List.length_map]
      exact din_chunks_le hc (lt_of_not_dinOutOfRange hr)
  | flush =>
    cases hcs : s.convFlushOf with
    | none => exact .inl ⟨_, by simp, flushRule_reject hcs⟩
    | some cs =>
      refine .inr (.inr ⟨_, _, flushRule_some hcs, rfl, rfl, fun hc => ?_⟩)
      simpa [maxItems] using convFlushOf_length_le hc hcs
  | fin =>
    cases hcs : s.convFlushOf with
    | none => exact .inl ⟨_, by simp, finRule_reject hcs⟩
    | some cs =>
      refine .inr (.inr ⟨_, _, finRule_some hcs, rfl, rfl, fun hc => ?_⟩)
      simpa [maxItems, checksumSymbols] using convFlushOf_length_le hc hcs

/-- What a rule pushes goes behind what the FIFO holds, and the table bounds it (R50, R114). -/
theorem ruleOf_ok_fifo {i : Instr} {s t : State} (hi : i ≠ .clr) (h : ruleOf i s = .ok t) :
    ∃ items, t.fifo = s.fifo ++ items ∧ (s.cnt.toNat < toBits s.dir → items.length ≤ maxItems i s) := by
  rcases ruleOf_push_cases hi s with ⟨e, -, he⟩ | ⟨u, hu, hfifo⟩ | ⟨items, u, hu, hfifo, -, hmax⟩
  · rw [he] at h; cases h
  · rw [hu] at h
    cases h
    exact ⟨[], by simp [hfifo]⟩
  · obtain ⟨rfl, -⟩ := push_inv (hu.symm.trans h)
    exact ⟨items, by simp [hfifo], hmax⟩

/-- A rule raises OVERFLOW only when the table's items do not fit (R114). -/
theorem ruleOf_overflow {i : Instr} {s : State} (hc : s.cnt.toNat < toBits s.dir)
    (h : ruleOf i s = .error .overflow) : s.params.outDepth < s.fifo.length + maxItems i s := by
  have hi : i ≠ .clr := by rintro rfl; cases h
  rcases ruleOf_push_cases hi s with ⟨e, hne, he⟩ | ⟨u, hu, -⟩ | ⟨items, u, hu, hfifo, hparams, hmax⟩
  · rw [he] at h
    exact absurd (Except.error.inj h) hne
  · rw [hu] at h; cases h
  · obtain ⟨-, hroom⟩ := push_inv_error (hu.symm.trans h)
    rw [hfifo, hparams] at hroom
    have := hmax hc
    omega

/-- An empty FIFO has room for every command (R6, R114). -/
theorem maxItems_le_outDepth {s : State} (hI : Inv s) (i : Instr) : maxItems i s ≤ s.params.outDepth := by
  obtain ⟨-, -, hdepth, -⟩ := hI.params
  have hlen := hI.hrp_le
  have hdin : ∀ v, maxItems (.din v) s ≤ 2 := fun v => by cases hd : s.dir <;> simp [maxItems, hd]
  cases i with
  | din v => have := hdin v; omega
  | _ => simp only [maxItems]; omega

/-- A command that starts outside ERR raises OVERFLOW only when the table's items do not fit. -/
theorem Inv.exec_overflow {i : Instr} {s t : State} (hI : Inv s) (hp : s.phase ≠ .err)
    (h : Machine.exec i s = .next t) (ht : t.err = .overflow) : s.params.outDepth < s.fifo.length + maxItems i s := by
  rcases exec_cases h with
    ⟨-, rfl⟩ | ⟨-, herr, -⟩ | ⟨-, -, -, rfl⟩ | ⟨-, -, -, -, rfl⟩ | ⟨-, hl, hw, hok | ⟨e, he, rfl⟩⟩
  · cases ht
  · exact absurd herr hp
  · cases ht
  · cases ht
  · rw [hI.ruleOf_err hw hl hok] at ht
    cases ht
  · obtain rfl : e = .overflow := ht
    exact ruleOf_overflow hI.cnt_lt he

theorem Inv.exec_fifo_length_le {i : Instr} {s t : State} (hI : Inv s) (h : Machine.exec i s = .next t) :
    t.fifo.length ≤ s.fifo.length + maxItems i s := by
  by_cases hi : i = .clr
  · subst hi
    cases h
    simp
  rcases exec_outcome h with hok | ⟨e, rfl⟩ | rfl
  · obtain ⟨items, hfifo, hmax⟩ := ruleOf_ok_fifo hi hok
    rw [hfifo, List.length_append]
    exact Nat.add_le_add_left (hmax hI.cnt_lt) _
  · simp
  · omega

/-! ### Runs of commands -/

theorem execAll_cons_next {i : Instr} {is : List Instr} {s t : State} (h : execAll (i :: is) s = .next t) :
    ∃ u, exec i s = .next u ∧ execAll is u = .next t := by
  obtain ⟨u, hu⟩ := exec_next i s
  exact ⟨u, hu, (execAll_cons hu).symm.trans h⟩

/-- What each of the commands keeps, their run keeps. -/
theorem execAll_keeps {P : State → Prop} {is : List Instr} {s t : State}
    (hstep : ∀ i ∈ is, ∀ s t, P s → exec i s = .next t → P t) (hs : P s) (h : execAll is s = .next t) : P t := by
  induction is generalizing s with
  | nil => cases h; exact hs
  | cons i is ih =>
    obtain ⟨u, hu, hrest⟩ := execAll_cons_next h
    exact ih (fun j hj => hstep j (by simp [hj])) (hstep i (by simp) s u hs hu) hrest

/-! ### An ENC session (41_checksum.md R81, 42_mapper.md R86) -/

/-- An unread ENC session shows its prefix, the separator and the characters of the payload `d`, and holds the polymod
of both. -/
def ShowsPayload (s : State) (d : List Symbol) : Prop :=
  s.fifo = s.hrpChars.map (fun c => c.setWidth 8) ++ [separator] ++ d.map mapSymbol ∧
  s.chk = polymodFrom 1#30 (hrpExpand s.hrpChars ++ d)

/-- A finished ENC session shows the source's encoding of its prefix and the payload `d`. -/
def ShowsAddress (s : State) (d : List Symbol) : Prop :=
  s.fifo = addressItems s.hrpChars d ∧ s.chk = checksum s.hrpChars d

@[simp] theorem withSep_hrpChars (s : State) : s.withSep.hrpChars = s.hrpChars := rfl
@[simp] theorem finished_hrpChars (s : State) (cs : List Nat) : (s.finished cs).hrpChars = s.hrpChars := rfl

/-- SEP starts the payload. -/
theorem showsPayload_withSep {s : State} (hI : Inv s) (hp : s.phase = .hrp) : ShowsPayload s.withSep [] := by
  obtain ⟨hfifo, -⟩ := hI.empty (.inr hp)
  have hchk := hI.chk_one (.inr (.inl hp))
  constructor
  · simp [State.withSep, State.hrpChars, hfifo]
  · rw [withSep_hrpChars, List.append_nil, ← hchk]
    rfl

/-- Symbols delivered extend the payload. -/
theorem ShowsPayload.append {s t : State} {d xs : List Symbol} (hS : ShowsPayload s d)
    (hchars : t.hrpChars = s.hrpChars) (hfifo : t.fifo = s.fifo ++ xs.map mapSymbol)
    (hchk : t.chk = polymodFrom s.chk xs) : ShowsPayload t (d ++ xs) := by
  obtain ⟨hsfifo, hschk⟩ := hS
  constructor
  · rw [hfifo, hsfifo, hchars, List.map_append, List.append_assoc]
  · rw [hchk, hschk, hchars, ← polymodFrom_append, List.append_assoc]

/-- Chunks on the ENC route are symbols delivered (R67). -/
theorem ShowsPayload.emit {s t : State} {d : List Symbol} {cs : List Nat} (hS : ShowsPayload s d)
    (hchars : t.hrpChars = s.hrpChars) (hfifo : t.fifo = s.fifo ++ cs.map (itemOf .enc))
    (hchk : t.chk = chkAfter .enc s.chk cs) : ShowsPayload t (d ++ cs.map (BitVec.ofNat 5)) :=
  hS.append hchars (by rw [hfifo, List.map_map]; rfl) hchk

/-- FIN completes the source's encoding (R80, R86). -/
theorem ShowsPayload.finished {s : State} {d : List Symbol} (hS : ShowsPayload s d) (cs : List Nat) :
    ShowsAddress (s.finished cs) (d ++ cs.map (BitVec.ofNat 5)) := by
  obtain ⟨hfifo, hchk⟩ := hS
  have hsum : s.finChk cs = checksum s.hrpChars (d ++ cs.map (BitVec.ofNat 5)) := by
    simp [State.finChk, checksum, hchk, polymodFrom]
  refine ⟨?_, hsum⟩
  rw [finished_hrpChars, addressItems, ← hsum]
  simp [State.finished, State.finItems, hfifo, separator]

/-- What an unread session shows in the two phases that show something on the ENC route. -/
structure SessionShows (s : State) : Prop where
  data : s.phase = .data → ∃ d, ShowsPayload s d
  done : s.phase = .done → s.route = .enc → ∃ d, ShowsAddress s d

theorem sessionShows_of_phase {s : State} (hdata : s.phase ≠ .data) (hdone : s.phase ≠ .done) : SessionShows s :=
  ⟨fun h => absurd h hdata, fun h => absurd h hdone⟩

theorem sessionShows_of_raw {s : State} (hdata : s.phase ≠ .data) (hr : s.route = .raw) : SessionShows s :=
  ⟨fun h => absurd h hdata, fun _ h => nomatch hr.symm.trans h⟩

theorem sessionShows_of_data {s : State} {d : List Symbol} (hp : s.phase = .data) (h : ShowsPayload s d) :
    SessionShows s :=
  ⟨fun _ => ⟨d, h⟩, fun hdone => nomatch hp.symm.trans hdone⟩

/-- DIN and FLUSH deliver their chunks on the ENC route; the RAW route shows no address. -/
theorem SessionShows.emit {s t : State} {cs : List Nat} {p : Phase} (hS : SessionShows s)
    (hl : s.route = .enc → s.phase = .data) (hp : p ≠ .data)
    (hphase : t.phase = rawPhase s.route p s.phase) (hroute : t.route = s.route) (hchars : t.hrpChars = s.hrpChars)
    (hfifo : t.fifo = s.fifo ++ cs.map (itemOf s.route)) (hchk : t.chk = chkAfter s.route s.chk cs) :
    SessionShows t := by
  cases hr : s.route with
  | raw => exact sessionShows_of_raw (by rw [hphase, hr]; exact hp) (hroute.trans hr)
  | enc =>
    rw [hr] at hphase hfifo hchk
    obtain ⟨d, hd⟩ := hS.data (hl hr)
    exact sessionShows_of_data (hphase.trans (hl hr)) (hd.emit hchars hfifo hchk)

theorem SessionShows.exec {i : Instr} {s t : State} (hS : SessionShows s) (hI : Inv s) (hi : i ≠ .clr)
    (h : exec i s = .next t) : SessionShows t := by
  by_cases ht : t.phase = .err
  · exact sessionShows_of_phase (by simp [ht]) (by simp [ht])
  obtain ⟨hl, hok⟩ := exec_completed hi h ht
  cases i with
  | nop => cases hok; exact hS
  | clr => exact absurd rfl hi
  | cfg c =>
    cases hok
    have hidle : s.phase = .idle := by simpa [Instr.op, legalPhases] using hl
    exact sessionShows_of_phase (by simp [hidle]) (by simp [hidle])
  | hrp v =>
    obtain ⟨-, -, rfl⟩ := hrpRule_ok hok
    exact sessionShows_of_phase (by simp) (by simp)
  | sep =>
    obtain ⟨-, rfl⟩ := sepRule_ok hok
    exact sessionShows_of_data rfl (showsPayload_withSep hI (legal_sep hl))
  | din v =>
    obtain ⟨-, -, rfl⟩ := dinRule_ok hok
    exact hS.emit (legal_din hl).1 (p := .conv) (by simp) rfl rfl rfl rfl rfl
  | sym x =>
    obtain ⟨-, rfl⟩ := symRule_ok hok
    obtain ⟨d, hd⟩ := hS.data (legal_sym hl)
    exact sessionShows_of_data (legal_sym hl) (hd.append (xs := [x]) rfl rfl rfl)
  | flush =>
    obtain ⟨cs, -, -, rfl⟩ := flushRule_ok hok
    exact hS.emit (legal_flush hl) (p := .done) (by simp) rfl rfl rfl rfl rfl
  | fin =>
    obtain ⟨cs, -, -, rfl⟩ := finRule_ok hok
    obtain ⟨d, hd⟩ := hS.data (legal_fin hl)
    exact ⟨nofun, fun _ _ => ⟨_, hd.finished cs⟩⟩

/-! ### The command sequence of R110 -/

/-- HRPs append their characters. -/
theorem execAll_hrps {s : State} {h : List HrpChar} (hI : Inv s) (hr : s.route = .enc)
    (hp : s.phase = .idle ∨ s.phase = .hrp) (hroom : s.hrpLen.toNat + h.length ≤ s.params.hrpMax) :
    ∃ t, execAll (h.map (fun c => .hrp (c.setWidth 8))) s = .next t ∧ Inv t ∧ t.hrpChars = s.hrpChars ++ h ∧
      t.phase = (if h = [] then s.phase else .hrp) ∧ t.cfg = s.cfg ∧ t.params = s.params := by
  induction h generalizing s with
  | nil => exact ⟨s, rfl, hI, by simp, rfl, rfl, rfl⟩
  | cons c h ih =>
    rw [List.length_cons] at hroom
    have hlen : s.hrpLen.toNat ≠ s.params.hrpMax := by omega
    have hcode : (c.setWidth 8).toNat < 0x80 := by
      rw [BitVec.toNat_setWidth_of_le (by decide)]
      exact c.isLt
    have hchar : (c.setWidth 8).setWidth 7 = c := BitVec.setWidth_setWidth_of_le c (by decide)
    have hfirst := exec_hrp (legal_hrp_of_enc hr hp) hcode hlen
    rw [hchar] at hfirst
    have hlen' : (s.withHrp c).hrpLen.toNat + h.length ≤ s.params.hrpMax := by
      have : (s.withHrp c).hrpLen.toNat = s.hrpLen.toNat + 1 := hI.hrpLen_succ_toNat hlen
      omega
    obtain ⟨t, hrun, hIt, hchars, hphase, hcfg, hparams⟩ := ih (hI.exec hfirst) hr (.inr rfl) hlen'
    refine ⟨t, (execAll_cons hfirst).trans hrun, hIt, ?_, ?_, hcfg, hparams⟩
    · rw [hchars, withHrp_hrpChars hI hlen, List.append_assoc, List.singleton_append]
    · rw [hphase, if_neg (List.cons_ne_nil _ _)]
      exact ite_id _

/-- HRPs and SEP open the payload of a prefix that fits. -/
theorem execAll_hrps_sep {s : State} {h : List HrpChar} (hI : Inv s) (hr : s.route = .enc) (hp : s.phase = .idle)
    (hne : h ≠ []) (hmax : h.length ≤ s.params.hrpMax) :
    ∃ t, execAll (h.map (fun c => .hrp (c.setWidth 8)) ++ [.sep]) s = .next t ∧ Inv t ∧ t.hrpChars = h ∧
      t.phase = .data ∧ t.cnt = 0#4 ∧ t.cfg = s.cfg ∧ t.params = s.params ∧ ShowsPayload t [] := by
  have hzero : s.hrpLen = 0#8 := hI.hrp_zero (.inr hp)
  obtain ⟨t, hrun, hIt, hchars, hphase, hcfg, hparams⟩ := execAll_hrps hI hr (.inl hp) (by simpa [hzero] using hmax)
  have hnil : s.hrpChars = [] := by simp [State.hrpChars, hzero]
  rw [hnil, List.nil_append] at hchars
  rw [if_neg hne] at hphase
  have hl : t.phase ∈ legalPhases .sep t.route := by
    simp [(hIt.enc_phase (.inl hphase)).1, hphase, legalPhases]
  have hroom : t.fifo.length + (t.hrpChars.length + 1) ≤ t.params.outDepth := by
    obtain ⟨-, -, hdepth, -⟩ := hI.params
    rw [(hIt.empty (.inr hphase)).1, hchars, hparams, List.length_nil]
    omega
  have hsep := exec_sep hl hroom
  exact ⟨t.withSep, (execAll_append hrun).trans (execAll_single hsep), hIt.exec hsep, hchars, rfl,
    hIt.cnt_zero (.inr (.inl hphase)), hcfg, hparams, showsPayload_withSep hIt hphase⟩

/-- Bits delivered on the ENC route and then finished, as one effect. -/
theorem shiftIn_finished {s : State} {p : Phase} {n b : Nat} {cs : List Nat} (hr : s.route = .enc) :
    (s.shiftIn p n b).finished cs = s.finished (s.chunksOf n b ++ cs) := by
  have hchk : (s.shiftIn p n b).finChk cs = s.finChk (s.chunksOf n b ++ cs) := by
    simp [State.finChk, State.shiftIn, hr, chkAfter, polymodFrom]
  have hfifo : (s.shiftIn p n b).fifo ++ (s.shiftIn p n b).finItems cs =
      s.fifo ++ s.finItems (s.chunksOf n b ++ cs) := by
    have hshift : (s.shiftIn p n b).fifo =
        s.fifo ++ ((s.chunksOf n b).map (BitVec.ofNat 5)).map mapSymbol := by
      rw [State.shiftIn, hr, List.map_map]
      rfl
    simp only [State.finItems, hchk, hshift, List.map_append, List.append_assoc]
  rw [State.finished, hchk, hfifo]
  rfl

/-- DINs and FIN with nothing buffered deliver `convert` of the whole sequence (R70, R80). -/
theorem execAll_dins_fin {s : State} {vs : List Byte} {cs : List Nat} (hr : s.route = .enc) (hp : s.phase = .data)
    (hc : s.cnt = 0#4) (hv : ∀ v ∈ vs, v.toNat < 2 ^ fromBits s.dir)
    (h : convert (fromBits s.dir) (toBits s.dir) s.pad (vs.map BitVec.toNat) = some cs)
    (hroom : s.fifo.length + cs.length + 6 ≤ s.params.outDepth) :
    execAll (vs.map .din ++ [.fin]) s = .next (s.finished cs) := by
  have hl : s.phase ∈ legalPhases .din s.route := by simp [hr, hp, legalPhases]
  have hlen := convert_length h
  rw [List.length_map] at hlen
  obtain ⟨p, hpl, hrun⟩ := execAll_dins hl (by simp [hc, toBits_pos]) hv (by simp [hc]; omega)
  rw [convert_eq_convFlushOf p hc (by simpa using hv) (by rw [List.length_map]) rfl] at h
  obtain ⟨ds, hds, rfl⟩ := Option.map_eq_some_iff.1 h
  rw [execAll_append hrun, ← shiftIn_finished (p := p) hr]
  rw [List.length_append, chunksOf_length] at hroom
  refine execAll_single (exec_fin_some ?_ hds (by simpa [← Nat.add_assoc] using hroom))
  rw [shiftIn_route, shiftIn_phase, hr, (legal_din hpl).1 hr]
  simp [legalPhases]

/-- The reset configuration (R106). -/
theorem fields_of_cfg_reset {s : State} (h : s.cfg = 0b001#3) :
    s.route = .enc ∧ s.dir = .eightToFive ∧ s.pad = true := by
  rw [State.route, State.dir, State.pad, h]
  decide

/-! ### The hidden characters (10_state.md R14) -/

/-- `SameVisible` in terms of the one field that may differ. -/
theorem sameVisible_iff {s t : State} : SameVisible s t ↔
    ∃ b, t = { s with hrpBuf := b } ∧ b.length = s.hrpBuf.length ∧
      b.take s.hrpLen.toNat = s.hrpBuf.take s.hrpLen.toNat := by
  constructor
  · rintro ⟨ht, hlen, hchars⟩
    refine ⟨t.hrpBuf, ht, hlen, ?_⟩
    have hn : t.hrpLen = s.hrpLen := by rw [ht]
    rwa [State.hrpChars, hn] at hchars
  · rintro ⟨b, rfl, hlen, htake⟩
    exact ⟨rfl, hlen, htake⟩

theorem take_congr_of_le {α : Type} {l l' : List α} {m n : Nat} (hm : m ≤ n) (h : l.take n = l'.take n) :
    l.take m = l'.take m := by
  have := congrArg (List.take m) h
  rwa [List.take_take, List.take_take, min_eq_left hm] at this

/-- Two lists that agree before `n` agree up to `n` after the same write there. -/
theorem take_succ_set_congr {α : Type} {l l' : List α} {n : Nat} (hlen : l.length = l'.length)
    (h : l.take n = l'.take n) (a : α) : (l.set n a).take (n + 1) = (l'.set n a).take (n + 1) := by
  rcases Nat.lt_or_ge n l.length with hn | hn
  · rw [take_succ_set hn, take_succ_set (hlen ▸ hn), h]
  · rw [List.take_of_length_le hn, List.take_of_length_le (hlen ▸ hn)] at h
    rw [h]

/-- An update that neither reads nor writes `hrp_buf`, and does not lengthen the prefix, shows nothing of it. -/
theorem SameVisible.update {s t : State} (h : SameVisible s t) {f : State → State}
    (hf : ∀ b, f { s with hrpBuf := b } = { f s with hrpBuf := b }) (hbuf : (f s).hrpBuf = s.hrpBuf)
    (hlen : (f s).hrpLen.toNat ≤ s.hrpLen.toNat) : SameVisible (f s) (f t) := by
  obtain ⟨b, rfl, hb, htake⟩ := sameVisible_iff.1 h
  exact sameVisible_iff.2 ⟨b, hf b, by rw [hbuf, hb], by rw [hbuf]; exact take_congr_of_le hlen htake⟩

/-! ### The host sees the same in both -/

theorem SameVisible.regValue {s t : State} (h : SameVisible s t) (r : Reg) : regValue r t = regValue r s := by
  obtain ⟨b, rfl, -⟩ := sameVisible_iff.1 h
  cases r <;> rfl

theorem SameVisible.raise {s t : State} (h : SameVisible s t) (e : ErrCode) :
    SameVisible (raise e s) (raise e t) :=
  h.update (fun _ => rfl) rfl (le_refl _)

theorem SameVisible.doClr {s t : State} (h : SameVisible s t) : SameVisible (doClr s) (doClr t) :=
  h.update (fun _ => rfl) rfl (Nat.zero_le _)

theorem SameVisible.doReset {s t : State} (h : SameVisible s t) : SameVisible (doReset s) (doReset t) :=
  h.update (fun _ => rfl) rfl (Nat.zero_le _)

theorem SameVisible.busRead {s t : State} (h : SameVisible s t) (r : Reg) :
    SameVisible (busRead r s) (busRead r t) :=
  h.update (fun _ => by cases r <;> rfl) (by simp) (by simp)

/-- The entry that HRP writes becomes visible, and it is the same in both. -/
theorem SameVisible.withHrp {s t : State} (h : SameVisible s t) (c : HrpChar) :
    SameVisible (s.withHrp c) (t.withHrp c) := by
  obtain ⟨b, rfl, hb, htake⟩ := sameVisible_iff.1 h
  have hlen : (s.hrpLen + 1#8).toNat ≤ s.hrpLen.toNat + 1 := by simp; omega
  exact sameVisible_iff.2 ⟨b.set s.hrpLen.toNat c, rfl, by simp [State.withHrp, hb],
    take_congr_of_le hlen (take_succ_set_congr hb htake c)⟩

/-- Two results of a command's rule that no register tells apart. -/
inductive SameResult : Except ErrCode State → Except ErrCode State → Prop where
  | ok {s t : State} (h : SameVisible s t) : SameResult (.ok s) (.ok t)
  | error (e : ErrCode) : SameResult (.error e) (.error e)

theorem SameVisible.push {s t : State} (h : SameVisible s t) (items : List Byte) :
    SameResult (push items s) (push items t) := by
  have happend := h.update (f := fun s => { s with fifo := s.fifo ++ items }) (fun _ => rfl) rfl (le_refl _)
  obtain ⟨b, rfl, -⟩ := sameVisible_iff.1 h
  rcases push_cases items s with ⟨hroom, hs⟩ | ⟨hroom, hs⟩
  · rw [hs, push_ok (s := { s with hrpBuf := b }) hroom]
    exact .ok happend
  · rw [hs, push_overflow (s := { s with hrpBuf := b }) hroom]
    exact .error _

/-- The commands that output write these fields and push. -/
theorem SameVisible.output {s t : State} (h : SameVisible s t) (items : List Byte) (a : BitVec 12) (n : BitVec 4)
    (k : Chk) (p : Phase) :
    SameResult (Machine.push items { s with acc := a, cnt := n, chk := k, phase := p })
      (Machine.push items { t with acc := a, cnt := n, chk := k, phase := p }) :=
  (h.update (f := fun s => { s with acc := a, cnt := n, chk := k, phase := p }) (fun _ => rfl) rfl (le_refl _)).push
    items

theorem SameVisible.ruleOf {s t : State} (h : SameVisible s t) (i : Instr) :
    SameResult (ruleOf i s) (ruleOf i t) := by
  have hchars : t.hrpChars = s.hrpChars := h.2.2
  obtain ⟨b, rfl, -⟩ := sameVisible_iff.1 h
  cases i with
  | nop => exact .ok h
  | clr => exact .ok h.doClr
  | cfg c => exact .ok (h.update (f := fun s => { s with cfg := c }) (fun _ => rfl) rfl (le_refl _))
  | hrp v =>
    simp only [Machine.ruleOf, hrpRule]
    split_ifs
    · exact .error _
    · exact .error _
    · exact .ok (h.withHrp _)
  | sep =>
    simp only [Machine.ruleOf, sepRule, hchars]
    exact h.output _ _ _ _ _
  | sym x => exact h.output _ _ _ _ _
  | din v =>
    simp only [Machine.ruleOf]
    cases hr : dinOutOfRange s.dir v with
    | true =>
      rw [dinRule_range hr, dinRule_range (s := { s with hrpBuf := b }) hr]
      exact .error _
    | false =>
      rw [dinRule_inRange hr, dinRule_inRange (s := { s with hrpBuf := b }) hr]
      exact h.output _ _ _ _ _
  | flush =>
    simp only [Machine.ruleOf]
    cases hc : s.convFlushOf with
    | none =>
      rw [flushRule_reject hc, flushRule_reject (s := { s with hrpBuf := b }) hc]
      exact .error _
    | some cs =>
      rw [flushRule_some hc, flushRule_some (s := { s with hrpBuf := b }) hc]
      exact h.output _ _ _ _ _
  | fin =>
    simp only [Machine.ruleOf]
    cases hc : s.convFlushOf with
    | none =>
      rw [finRule_reject hc, finRule_reject (s := { s with hrpBuf := b }) hc]
      exact .error _
    | some cs =>
      rw [finRule_some hc, finRule_some (s := { s with hrpBuf := b }) hc]
      exact h.output _ _ _ _ _

theorem SameVisible.settle {s t : State} {r q : Except ErrCode State} (h : SameVisible s t) (hr : SameResult r q) :
    SameVisible (settle s r) (settle t q) := by
  cases hr with
  | ok h' => exact h'
  | error e => exact h.raise e

theorem SameVisible.phase {s t : State} (h : SameVisible s t) : t.phase = s.phase := by rw [h.1]

theorem SameVisible.route {s t : State} (h : SameVisible s t) : t.route = s.route := by rw [h.1]; rfl

theorem SameVisible.dispatch {s t : State} (h : SameVisible s t) (i : Instr) :
    SameVisible (dispatch i (Machine.ruleOf i) s) (dispatch i (Machine.ruleOf i) t) := by
  simp only [Machine.dispatch, h.phase, h.route]
  split_ifs
  · exact h
  · exact h.raise _
  · exact h.raise _
  · exact h.settle (h.ruleOf i)

/-- Two outcomes of which the first's next state is matched by the second's. -/
def SameOutcome (o p : Host.Outcome State Fault Refusal) : Prop :=
  ∀ s', o = .next s' → ∃ t', p = .next t' ∧ SameVisible s' t'

theorem sameOutcome_next {s t : State} (h : SameVisible s t) : SameOutcome (.next s) (.next t) := by
  rintro s' hs
  cases hs
  exact ⟨t, rfl, h⟩

theorem SameVisible.exec {s t : State} (h : SameVisible s t) (i : Instr) : SameOutcome (exec i s) (exec i t) := by
  by_cases hi : i = .clr
  · subst hi
    exact sameOutcome_next h.doClr
  · rw [exec_of_ne_clr hi, exec_of_ne_clr hi]
    exact sameOutcome_next (h.dispatch i)

theorem SameVisible.execute {s t : State} (h : SameVisible s t) (w : Word) :
    SameOutcome (execute w s) (execute w t) := by
  unfold Machine.execute
  cases decode w with
  | ok i => exact h.exec i
  | error e =>
    simp only [rejectWord, h.phase]
    split_ifs
    · exact sameOutcome_next h
    · exact sameOutcome_next (h.raise _)

theorem SameVisible.hostAccess {s t : State} (h : SameVisible s t) (a : Access) :
    SameOutcome (hostAccess a s) (hostAccess a t) := by
  have hparams : t.params = s.params := by rw [h.1]
  cases a with
  | reset => exact sameOutcome_next h.doReset
  | read ad size =>
    simp only [Machine.hostAccess, hparams]
    split_ifs
    · nofun
    · cases regOfAddr s.params ad with
      | none => exact sameOutcome_next h
      | some r => exact sameOutcome_next (h.busRead r)
  | write ad size v =>
    simp only [Machine.hostAccess, hparams]
    split_ifs
    · nofun
    · cases regOfAddr s.params ad with
      | none => exact sameOutcome_next h
      | some r =>
        by_cases hr : r = .cmd
        · subst hr
          exact h.execute v
        · simp only [busWrite_of_ne_cmd hr]
          exact sameOutcome_next h

theorem SameVisible.step {s t : State} (h : SameVisible s t) : SameOutcome (step s) (step t) := by
  have hpending : t.pending = s.pending := by rw [h.1]
  cases hq : s.pending with
  | nil =>
    rw [step_nil hq, step_nil (hpending.trans hq)]
    exact sameOutcome_next h
  | cons a rest =>
    rw [step_cons hq, step_cons (hpending.trans hq)]
    exact (h.update (f := fun s => { s with pending := rest }) (fun _ => rfl) rfl (le_refl _)).hostAccess a

/-! ### The statements -/

/-- Settles O1: decoding drops no bit, and encoding loses nothing of a well-formed command. -/
theorem decodeIsInverseOfEncode : Obligations.DecodeIsInverseOfEncode := decode_eq_ok_iff_encode

/-- Settles O45, by the access that the step serves. -/
theorem stepKeepsInv : Obligations.StepKeepsInv := fun _ _ hI h => hI.step h

/-- Settles O44: the state after reset is a cleared one. -/
theorem invHoldsAtReset : Obligations.InvHoldsAtReset := fun _ hp => Inv.resetWith hp

/-- Settles O5: decoding gives the command back, and its gate is the order of R62. -/
theorem executeFollowsDispatchOrder : Obligations.ExecuteFollowsDispatchOrder := by
  intro s i hw
  rw [execute_encode hw]
  split_ifs with hp hi hl
  · rw [hi]
  · exact exec_in_err hp hi
  · rfl
  · exact exec_sequence hp hw hl

/-- Settles O14: an offset and its masked form reach the same register. -/
theorem lowAddressBitsIgnoredOtherSizesRefused : Obligations.LowAddressBitsIgnoredOtherSizesRefused := by
  refine fun s => ⟨fun off h => ?_, fun a size h => hostAccess_size_ne_four h a s⟩
  have hmask : off &&& 0x1C < 32 := lt_of_le_of_lt Nat.and_le_left h
  refine ⟨?_, fun v => ?_⟩
  · rw [hostAccess_read_inside s h, hostAccess_read_inside s hmask, regAt_and_mask h]
  · rw [hostAccess_write_inside s h, hostAccess_write_inside s hmask, regAt_and_mask h]

/-- Settles O15: an address outside the window reaches no register. -/
theorem outsideTheWindowNothingHappens : Obligations.OutsideTheWindowNothingHappens := by
  intro s a h
  simp [hostAccess, regOfAddr_outside h]

/-- Settles O16, by the access that the step serves. -/
theorem onlyCommandsOutReadsAndResetChangeTheBlock : Obligations.OnlyCommandsOutReadsAndResetChangeTheBlock := by
  intro s t hs hne
  cases hq : s.pending with
  | nil =>
    rw [step_nil hq] at hs
    cases hs
    exact absurd rfl hne
  | cons a rest =>
    rw [step_cons hq] at hs
    refine ⟨rest, ?_⟩
    rcases hostAccess_cases hs with ⟨rfl, -⟩ | ⟨ad, r, rfl, hr, rfl⟩ | ⟨ad, v, rfl, hlow, hhigh, -⟩ | rfl
    · exact .inl rfl
    · by_cases hpop : r = .out ∧ s.fifo ≠ []
      · obtain ⟨rfl, hfifo⟩ := hpop
        obtain ⟨hlow, hhigh⟩ := addr_of_regOfAddr_out hr
        exact .inr (.inr ⟨ad, rfl, hlow, hhigh, hfifo⟩)
      · rw [busRead_of_no_pop (s := { s with pending := rest }) hpop] at hne
        exact absurd rfl hne
    · exact .inr (.inl ⟨ad, v, rfl, hlow, hhigh⟩)
    · exact absurd rfl hne

/-- Settles O17: CLR's effect with `cfg` at its reset value, and the first state is its own reset. -/
theorem resetLeavesTheStatedValues : Obligations.ResetLeavesTheStatedValues := by
  refine ⟨fun s => ⟨doReset s, rfl, rfl, ?status, rfl, rfl, rfl, rfl, rfl, rfl, rfl⟩, fun p => ⟨State.resetWith p, rfl⟩⟩
  case status => exact statusWord_doClr s

/-- Settles O18: the step serves the first access, and a write to CMD executes its word. -/
theorem stepRunsTheDecodedCommand : Obligations.StepRunsTheDecodedCommand := by
  refine ⟨fun s a w i rest hq hlow hhigh hd => ?_, fun s hq => step_nil hq⟩
  rw [step_cons hq, hostAccess_write_cmd (s := { s with pending := rest }) hlow hhigh, execute, hd]

/-- Settles O19: the word placed is the command's encoding, and the next step executes it. -/
theorem fetchWordRunsNext : Obligations.FetchWordRunsNext := by
  intro s i hw
  rw [State.withFetchWord, tableWord_toNat, step_deliver, execute_encode hw]

/-- Settles O48: a raise writes `err`, `phase` and `fifo` alone, and each rule its own fields. -/
theorem commandsWriteOnlyTheirFields : Obligations.CommandsWriteOnlyTheirFields := by
  intro s t i h
  have hphase : i.op ∉ [Op.cfg, Op.hrp, Op.sep, Op.din, Op.sym, Op.flush, Op.fin, Op.clr] → t.phase = s.phase := by
    intro hi
    obtain rfl := eq_nop_of_op_not_mem hi
    rw [exec_nop] at h
    cases h
    rfl
  rcases exec_outcome h with hok | ⟨e, rfl⟩ | rfl
  · obtain ⟨hparams, hpending, hread, hcfg, hbuf, hlen, hconv, hchk⟩ := ruleOf_frame hok
    exact ⟨hparams, hpending, hread, hcfg, hbuf, hlen, hconv, hchk, hphase⟩
  · simpa using hphase
  · simp

/-- Settles O20, by induction on the list: a command does not see the accesses to come. -/
theorem commandWritesRunInOrder : Obligations.CommandWritesRunInOrder := by
  intro is
  induction is with
  | nil =>
    intro s rest _ hq
    subst hq
    rfl
  | cons i is ih =>
    intro s rest hw hq
    have hi : i.WellFormed := hw i (by simp)
    rw [List.map_cons, List.cons_append] at hq
    generalize hqueue : is.map (fun i => cmdWrite s.params (encode i)) ++ rest = queue at hq
    obtain ⟨u, hu, hrest⟩ := exec_withPending i { s with pending := queue } rest
    have hstep : step s = .next u := by
      rw [step_cons hq, ← hu]
      exact hostAccess_cmdWrite hi { s with pending := queue }
    obtain ⟨hparams, hpending, -⟩ := commandsWriteOnlyTheirFields _ _ _ hu
    rw [List.length_cons, run_succ (M := Sys2Proof.core) hstep, execAll_cons hrest]
    exact ih u rest (fun j hj => hw j (by simp [hj])) (by rw [hpending, hparams, hqueue])

/-- Settles O3: each word is the encoding of its command. -/
theorem sampleWordsDecode : Obligations.SampleWordsDecode :=
  ⟨decode_encode (i := .nop) trivial, decode_encode (i := .clr) trivial, decode_encode (i := .cfg 6#3) (by decide),
    decode_encode (i := .hrp 0x61#8) trivial, decode_encode (i := .sep) trivial,
    decode_encode (i := .din 0xff#8) trivial, decode_encode (i := .sym 31#5) trivial,
    decode_encode (i := .flush) trivial, decode_encode (i := .fin) trivial⟩

/-- Settles O52: a line assembles to the CMD write of its command, whose operand the line has checked. -/
theorem assembledLinesRunTheirCommand : Obligations.AssembledLinesRunTheirCommand := by
  refine ⟨fun l i s h => ?spelled, fun v hv => ?bytes, fun n hn => ?symbols, fun pad => ?config⟩
  case spelled =>
    have hw := wellFormed_of_lineCommand h
    exact ⟨hw, _, assemble_of_lineCommand h s.params, hostAccess_cmdWrite hw s⟩
  case bytes => simp [lineCommand, Nat.not_lt.2 hv]
  case symbols => simp [lineCommand, Nat.not_lt.2 hn]
  case config => cases pad <;> rfl

/-- Settles O24: the entry that HRP writes is the one behind the characters held. -/
theorem hrpAppendsACharacter : Obligations.HrpAppendsACharacter := by
  intro s v hI hr hp hv hlen
  exact ⟨_, exec_hrp (legal_hrp_of_enc hr hp) hv hlen, withHrp_hrpChars hI hlen _, hI.hrpLen_succ_toNat hlen, rfl⟩

/-- Settles O25, in the order in which the rule checks. -/
theorem hrpTraps : Obligations.HrpTraps := by
  intro s v hr hp
  have hl := legal_hrp_of_enc hr hp
  refine ⟨fun hv => ?_, fun hv hlen => ?_⟩
  · exact exec_error (i := .hrp v) (by simp) trivial hl (by simp [ruleOf, hrpRule, hrpCharIllegal, hv])
  · exact exec_error (i := .hrp v) (by simp) trivial hl
      (by simp [ruleOf, hrpRule, hrpCharIllegal, Nat.not_le.2 hv, hlen])

/-- Settles O26: SEP is legal in HRP, and its items are pushed all or none. -/
theorem sepClosesThePrefix : Obligations.SepClosesThePrefix := by
  intro s hr hp
  have hl : s.phase ∈ legalPhases .sep s.route := by simp [hr, hp, legalPhases]
  refine ⟨fun hroom => ?_, exec_sep_overflow hl⟩
  rw [← hrpExpand_eq, List.append_assoc]
  simp only [BitVec.ofNat_toNat]
  exact exec_sep hl hroom

/-- Settles O27: `ConvFlush` gives the last chunk, and FIN pushes it with the checksum. -/
theorem finPushesTheChecksum : Obligations.FinPushesTheChecksum := by
  intro s hI hr hp hbits
  rw [← lastChunk_of_enc hI hr]
  intro last c hroom
  have hl : s.phase ∈ legalPhases .fin s.route := by simp [hr, hp, legalPhases]
  exact exec_fin_some hl (convFlushOf_of_flushable hI.cnt_lt ((flushable_iff_of_enc hI hr).2 hbits)) hroom

/-- Settles O28: REJECT where `ConvFlush` has no result, OVERFLOW where the items of the result do not fit. -/
theorem finTraps : Obligations.FinTraps := by
  intro s hI hr hp
  have hl : s.phase ∈ legalPhases .fin s.route := by simp [hr, hp, legalPhases]
  refine ⟨fun hpad hbits => ?_, fun hbits hroom => ?_⟩
  · exact exec_fin_none hl (convFlushOf_of_not_flushable hI.cnt_lt (by simp [flushable_iff_of_enc hI hr, hpad, hbits]))
  · refine exec_fin_overflow hl
      (convFlushOf_of_flushable hI.cnt_lt ((flushable_iff_of_enc hI hr).2 hbits)) (lt_of_lt_of_eq hroom ?_)
    rw [State.lastChunk]
    split <;> rfl

/-- Settles O30: the mask, the shift and the sum of the constants are each linear. -/
theorem polymodStepIsLinear : Obligations.PolymodStepIsLinear := polymodStep_xor

/-- Settles O32: DIN's own rule in closed form, with room for its chunks. -/
theorem dinConvertsAndEmits : Obligations.DinConvertsAndEmits := by
  intro s v hI hl hv n a cs hroom
  rw [← rawPhase_eq]
  refine exec_ok (i := .din v) (by simp) trivial hl ((dinRule_eq hv hI.cnt_lt).trans (push_ok ?_))
  simpa using hroom

/-- Settles O33: the range of the value is checked before the room. -/
theorem dinTraps : Obligations.DinTraps := by
  intro s v hI hl
  refine ⟨fun hd hv => ?_, fun hv hroom => ?_⟩
  · exact exec_error (i := .din v) (by simp) trivial hl (dinRule_range (by simpa [dinOutOfRange, hd] using hv))
  · exact exec_error (i := .din v) (by simp) trivial hl
      ((dinRule_eq_shiftIn hv hI.cnt_lt).trans (if_neg (Nat.not_le.2 hroom)))

/-- Settles O34: `ConvFlush` gives the padded rest or nothing. -/
theorem flushEndsTheInput : Obligations.FlushEndsTheInput := by
  intro s hI hl hbits last hroom
  rw [exec_flush_some hl (convFlushOf_of_flushable hI.cnt_lt hbits) hroom, ← rawPhase_eq]
  rfl

/-- Settles O35: REJECT where `ConvFlush` has no result, OVERFLOW where its one chunk does not fit. -/
theorem flushTraps : Obligations.FlushTraps := by
  intro s hI hl
  refine ⟨fun hpad hbits => ?_, fun hpad hcnt hfull => ?_⟩
  · refine exec_flush_none hl (convFlushOf_of_not_flushable hI.cnt_lt ?_)
    rintro (h | ⟨hfrom, hzero⟩)
    · simp [hpad] at h
    · omega
  · refine exec_flush_overflow hl (convFlushOf_of_flushable hI.cnt_lt (.inl hpad)) ?_
    simp [State.lastChunk, hpad, hcnt, hfull]

/-- Settles O41: SYM pushes one item, or raises OVERFLOW. -/
theorem symDeliversOneSymbol : Obligations.SymDeliversOneSymbol := by
  intro s x hr hp
  have hl : s.phase ∈ legalPhases .sym s.route := by simp [hr, hp, legalPhases]
  refine ⟨exec_sym hl, fun hfull => ?_⟩
  exact exec_error (i := .sym x) (by simp) trivial hl (push_overflow (Nat.lt_succ_of_le hfull))

/-- Settles O42: every command but CLR keeps what the session shows. -/
theorem encSessionYieldsTheSourceAddress : Obligations.EncSessionYieldsTheSourceAddress := by
  intro s t is hI hp hclr hrun hdone hr
  have hstep : ∀ i ∈ is, ∀ s t, Inv s ∧ SessionShows s → exec i s = .next t → Inv t ∧ SessionShows t := by
    rintro i hi s t ⟨hI, hS⟩ h
    have hne : i ≠ .clr := by rintro rfl; exact hclr hi
    exact ⟨hI.exec h, hS.exec hI hne h⟩
  obtain ⟨hIt, hS⟩ := execAll_keeps hstep ⟨hI, sessionShows_of_phase (by simp [hp]) (by simp [hp])⟩ hrun
  refine ⟨hIt.err_of_phase (by simp [hdone]), ?_, hS.done hdone hr⟩
  rw [← List.length_pos_iff, hrpChars_length hIt]
  exact hIt.done_enc hdone hr

/-- Settles O43: HRPs and SEP show the prefix, and DINs and FIN deliver `convert` of the bytes. -/
theorem encodeSequenceSucceeds : Obligations.EncodeSequenceSucceeds := by
  intro s h bs hI hp hcfg hpos hmax hroom
  obtain ⟨d, hd, hlen⟩ := convert_pad_length (wi := 8) (wo := 5) (by decide) (bs.map BitVec.toNat)
  rw [List.length_map] at hlen
  obtain ⟨u, hrun, hIu, hchars, hphase, hcnt, hucfg, hparams, hS⟩ :=
    execAll_hrps_sep hI (fields_of_cfg_reset hcfg).1 hp (List.length_pos_iff.1 hpos) hmax
  obtain ⟨hr, hdir, hpad⟩ := fields_of_cfg_reset (hucfg.trans hcfg)
  have hfifo : u.fifo.length = h.length + 1 := by simp [hS.1, hchars]
  have hfin := execAll_dins_fin (vs := bs) (cs := d) hr hphase hcnt (by rw [hdir]; exact fun v _ => v.isLt)
    (by rw [hdir, hpad]; exact hd) (by rw [hfifo, hparams, hlen]; omega)
  obtain ⟨htfifo, htchk⟩ := hS.finished d
  rw [finished_hrpChars, hchars] at htfifo htchk
  refine ⟨u.finished d, d, ?_, hd, ⟨rfl, hIu.err_of_phase (by simp [hphase])⟩, hchars, htfifo, htchk⟩
  rw [List.append_assoc _ (bs.map _)]
  exact (execAll_append hrun).trans hfin

/-- Settles O49: a rule that succeeds appends its items, and OUT pops the head. -/
theorem fifoKeepsPushOrder : Obligations.FifoKeepsPushOrder := by
  refine ⟨fun s t i h hi ht => ?_, fun s => by simp⟩
  obtain ⟨items, hfifo, -⟩ := ruleOf_ok_fifo hi (exec_completed hi h ht).2
  exact ⟨items, hfifo⟩

/-- Settles O50: OVERFLOW means that the table's items do not fit, and they fit an empty FIFO. -/
theorem roomForTheTableNeverOverflows : Obligations.RoomForTheTableNeverOverflows := by
  intro s t i hI hp h
  refine ⟨fun hroom ht => ?_, hI.exec_fifo_length_le h⟩
  have hover := hI.exec_overflow hp h ht
  rcases hroom with hroom | hfifo
  · omega
  · rw [hfifo, List.length_nil, Nat.zero_add] at hover
    exact absurd (maxItems_le_outDepth hI i) (Nat.not_le.2 hover)

/-- Settles O51: in DONE the table lists NOP and CLR alone, and CLR leaves DONE. -/
theorem finishedResultIsStable : Obligations.FinishedResultIsStable := by
  rintro s t i - ⟨hs, -⟩ h ⟨ht, -⟩
  by_cases hi : i = .clr
  · subst hi
    cases h
    cases ht
  obtain ⟨hl, hok⟩ := exec_completed hi h (by simp [ht])
  rw [hs] at hl
  obtain rfl : i = .nop := by
    revert hl hi
    cases i <;> cases s.route <;> simp [Instr.op, legalPhases]
  cases hok
  rfl

/-- Settles O47: every operation answers alike in two states that differ in hidden characters only. -/
theorem hiddenCharactersNeverShow : Obligations.HiddenCharactersNeverShow :=
  fun _ _ s' h hs => ⟨h.regValue, h.step s' hs⟩

end Sys2Proof.Machine
end
